-- ==== Sys2Proof/Word.lean ====
section
/-! DEFINITION. The widths the spec gives the machine's values (00_scope.md R7, R10; 30_encoding.md R71). -/

namespace Sys2Proof

/-- A memory byte, a general register or a timer: 8 bits, unsigned (R20, R29, R30, R50). -/
abbrev Byte := BitVec 8

/-- An instruction word, the pc, the index register, a stack entry or the key vector: 16 bits (R23, R26, R27, R37, R70). -/
abbrev Word := BitVec 16

/-- The 12-bit address field nnn of an instruction word (R71, R72). -/
abbrev Addr12 := BitVec 12

/-- A 4-bit field of an instruction word that names no register: the draw height n, or bits the decoder ignores (R71, R74). -/
abbrev Nibble := BitVec 4

/-- The index of a general register: all sixteen values of the 4-bit field are valid (R20, R72). -/
abbrev RegIx := Fin 16

/-- VF, the register that is also the flag (R21). -/
abbrev VF : RegIx := 15

end Sys2Proof
end

