-- ==== Sys2Proof/Config.lean ====
section
/-! DEFINITION. The parameters of 00_scope.md R8 (what the builder of a block fixes), their defaults, and the free
values the spec gives no value for: each of those is an opaque constant with no body. -/

namespace Sys2Proof

/-- JUMP_V0_MASK, one of the two masks of R8 (41_control_flow.md R128, decision D6). -/
inductive JumpMask where
  /-- 0xFF, the observed 8-bit target. -/
  | mask8
  /-- 0xFFF, the 12-bit target: the default. -/
  | mask12
  deriving DecidableEq, Repr

/-- REG_BLOCK_MODE of R8 (43_index_memory.md R175, R176, decision D7). -/
inductive RegBlockMode where
  /-- FX55 and FX65 copy registers to and from memory: the default. -/
  | copy
  /-- FX55 and FX65 have no effect and check nothing. -/
  | noOp
  deriving DecidableEq, Repr

/-- The construction-time parameters of R8. A block's state carries them so that `step`, whose type the host fixes,
has them as an argument; nothing writes them (R41; assumption log 1). -/
structure Config where
  /-- W, the display's width in pixels; positive. -/
  width : Nat
  /-- H, the display's height in pixels; positive. -/
  height : Nat
  /-- CYCLES_PER_FRAME. -/
  cyclesPerFrame : Nat
  /-- TONE_FREQ in Hz, positive: only copied into the tone event (60_exceptions.md R241). -/
  toneFreq : Rat
  /-- FRAME_RATE in Hz, positive: timing only, no rule reads it (70_reset_and_hazards.md R280). -/
  frameRate : Rat
  /-- FONT, the 80 glyph bytes (20_memory.md R55). -/
  font : Vector Byte 80
  /-- JUMP_V0_MASK. -/
  jumpMask : JumpMask
  /-- REG_BLOCK_MODE. -/
  regBlockMode : RegBlockMode
  deriving DecidableEq, Repr

/-- What R8 requires of the parameters beyond their types: W, H, TONE_FREQ and FRAME_RATE are positive. -/
abbrev Config.wf (c : Config) : Prop := 0 < c.width ∧ 0 < c.height ∧ 0 < c.toneFreq ∧ 0 < c.frameRate

/-- Free value: CYCLES_PER_FRAME is OPEN, with no default (R8, decision D28; assumption log 2). -/
opaque Config.cyclesPerFrameOpen : Nat

/-- Free value: TONE_FREQ is OPEN, with no default (R8, decision D28; assumption log 2). The two numbers, each with 1
added, are its numerator and its denominator. -/
opaque Config.toneFreqParts : Nat × Nat

/-- The open TONE_FREQ: any positive rational, and nothing more is known of it (R8; assumption log 2). -/
def Config.toneFreqOpen : Rat := ((Config.toneFreqParts.1 + 1 : Nat) : Rat) / ((Config.toneFreqParts.2 + 1 : Nat) : Rat)

/-- Free value: the byte the environment gives at the n-th draw for which no byte waits on the `rnd` port
(R9, 42_alu.md R153, decision D27; assumption log 3). -/
opaque Config.randomByte : Nat → Byte

/-- The glyphs 0 to 7 of the conventional font (R55, from general knowledge by the spec's own mark). -/
def Config.fontLow : List Byte :=
  [0xF0, 0x90, 0x90, 0x90, 0xF0,  0x20, 0x60, 0x20, 0x20, 0x70,
   0xF0, 0x10, 0xF0, 0x80, 0xF0,  0xF0, 0x10, 0xF0, 0x10, 0xF0,
   0x90, 0x90, 0xF0, 0x10, 0x10,  0xF0, 0x80, 0xF0, 0x10, 0xF0,
   0xF0, 0x80, 0xF0, 0x90, 0xF0,  0xF0, 0x10, 0x20, 0x40, 0x40]

/-- The glyphs 8 to F of the conventional font (R55). -/
def Config.fontHigh : List Byte :=
  [0xF0, 0x90, 0xF0, 0x90, 0xF0,  0xF0, 0x90, 0xF0, 0x10, 0xF0,
   0xF0, 0x90, 0xF0, 0x90, 0x90,  0xE0, 0x90, 0xE0, 0x90, 0xE0,
   0xF0, 0x80, 0x80, 0x80, 0xF0,  0xE0, 0x90, 0x90, 0x90, 0xE0,
   0xF0, 0x80, 0xF0, 0x80, 0xF0,  0xF0, 0x80, 0xF0, 0x80, 0x80]

/-- The default FONT (R55). -/
def Config.fontDefault : Vector Byte 80 := ⟨(Config.fontLow ++ Config.fontHigh).toArray, rfl⟩

/-- The defaults of R8; the two OPEN parameters are free values. -/
def Config.default : Config where
  width := 64
  height := 32
  cyclesPerFrame := Config.cyclesPerFrameOpen
  toneFreq := Config.toneFreqOpen
  frameRate := 60
  font := Config.fontDefault
  jumpMask := .mask12
  regBlockMode := .copy

/-- Instructions per second while RUNNING (R280, for information only). -/
def Config.instructionRate (c : Config) : Rat := c.cyclesPerFrame * c.frameRate

end Sys2Proof
end

