-- ==== Sys2Proof/Machine/State.lean ====
section
/-! DEFINITION. The machine's state (10_state.md R20 to R44), the reasons a step can stop, and the state after power-on. -/

namespace Sys2Proof.Machine

/-- The fatal conditions of 60_exceptions.md R230 (10_state.md R34). -/
inductive FaultCode where
  /-- CALL with the stack full. -/
  | stackOverflow
  /-- RET with the stack empty. -/
  | stackUnderflow
  /-- A data access past 0xFFF. -/
  | memoryOutOfRange
  /-- A fetch with pc above 0xFFE. -/
  | fetchOutOfRange
  /-- A load of more than 3584 bytes. -/
  | loadError
  deriving DecidableEq, Repr

/-- The non-fatal conditions of R230. -/
inductive DiagCode where
  /-- A word of the unrecognized class was executed. -/
  | unknownOpcode
  deriving DecidableEq, Repr

/-- A fault record `(code, addr, word)` (R34). -/
structure FaultRecord where
  code : FaultCode
  /-- The offending instruction's address; the pc for a fetch fault; 0x200 for LoadError. -/
  addr : Word
  /-- The offending instruction word; 0 where there is none. -/
  word : Word
  deriving DecidableEq, Repr

/-- run_state (R32, R33). -/
inductive RunState where
  | running
  /-- The input-wait latch is set: register r waits for a key. -/
  | awaitingKey (r : RegIx)
  /-- A fatal condition was met. -/
  | halted (f : FaultRecord)
  deriving DecidableEq, Repr

/-- An event of the output trace: one transaction on an output port (R39, R40). -/
inductive Event where
  | dispClear
  | dispToggle (x y : Nat)
  | dispPresent
  | tonePlay (freq : Rat)
  | toneStop
  | diag (code : DiagCode) (addr word : Word)
  | fault (f : FaultRecord)
  deriving DecidableEq, Repr

/-- A transaction the host drives on an input port (R39). -/
inductive Transaction where
  /-- `load(bytes)` (R272). -/
  | load (bytes : List Byte)
  /-- `frame_tick(keys)` (R110). -/
  | frameTick (keys : Word)
  /-- `step_cycle()` (R107). -/
  | stepCycle
  deriving DecidableEq, Repr

/-- A display pixel (x, y) (R35). -/
abbrev Pixel := Nat × Nat

/-- Why the machine would stop outside its own state. The spec gives it no such stop: every fatal condition of R230 is a
next state whose run state is HALTED (R231), so this type has no constructor, no step answers `fault`, and nothing here
is unsafe (assumption log 5). -/
inductive Fault where
  deriving DecidableEq, Repr

/-- Why a step gives an instruction no meaning. -/
inductive Refusal where
  /-- Raised by `exec` alone, for an instruction with no meaning yet. Safe: nothing is claimed of what follows. Every
  instruction has a meaning, so no arm raises it. -/
  | notModelled (mnemonic : String)
  deriving DecidableEq, Repr

/-- The state of the block (R44), its parameters (R8), its port buffers, and the model's own bookkeeping. -/
structure State where
  /-- The construction-time parameters; nothing writes them (R8, R41). -/
  cfg : Config
  /-- V0 to VF (R20, R21). -/
  V : Vector Byte 16
  /-- The index register (R26). -/
  I : Word
  /-- The program counter (R23). -/
  pc : Word
  /-- The stack pointer: how many entries are in use, 0 to 16 (R28). -/
  sp : Fin 17
  /-- The call stack (R27). -/
  stack : Vector Word 16
  /-- The delay timer (R29). -/
  DT : Byte
  /-- The sound timer (R30). -/
  ST : Byte
  /-- Memory (20_memory.md R50): the cells that differ from what an unlisted address reads as, addresses rising. -/
  mem : List Host.Cell
  /-- run_state with the input-wait latch and the fault record (R33, R34). -/
  runState : RunState
  /-- The display plane (R35): the lit pixels, in rising order. -/
  fb : List Pixel
  /-- The tone output's last command (R36). -/
  toneOn : Bool
  /-- The key vector sampled by the last frame (R37, R38). -/
  keys : Word
  /-- The output trace, oldest event first (R40). -/
  trace : List Event
  /-- The model's own: the host's transactions not yet begun, oldest first (R39). -/
  pending : List Transaction
  /-- The model's own: how many cycles are left of the frame in progress, 0 between transactions (R110, R114). -/
  frameLeft : Nat
  /-- The model's own: bytes the environment has put on the `rnd` port and no RND has taken yet (R39, R153). -/
  rndIn : List Byte
  /-- The model's own: how many draws have been taken; it indexes the free values of the draws (R9). -/
  draws : Nat
  deriving DecidableEq, Repr

/-- The state after power-on of a block built with the parameters c (00_scope.md R8; R44; 70_reset_and_hazards.md R270):
memory lists nothing, since an unlisted address reads as FONT or 0, which is what the empty load leaves. The trace and
the model's own fields start empty (assumption log 6). -/
def State.powerOn (c : Config) : State where
  cfg := c
  V := Vector.replicate 16 0
  I := 0
  pc := 0x200
  sp := 0
  stack := Vector.replicate 16 0
  DT := 0
  ST := 0
  mem := []
  runState := .running
  fb := []
  toneOn := false
  keys := 0
  trace := []
  pending := []
  frameLeft := 0
  rndIn := []
  draws := 0

/-- The machine right after reset: power-on of the block with the defaults of R8 (assumption log 1). -/
def State.reset : State := State.powerOn Config.default

end Sys2Proof.Machine
end

