-- ==== Sys2Proof/Machine/Flags.lean ====
section
/-! DEFINITION. Every value an instruction leaves in the flag register VF (10_state.md R31). -/

namespace Sys2Proof.Machine

/-- A flag as VF holds it: 1 or 0. -/
def flagByte (b : Bool) : Byte := if b then 1 else 0

/-- 8XY4: 1 iff the true sum exceeds 255 (42_alu.md R148). -/
def flagCarry (a b : Byte) : Byte := flagByte (decide (255 < a.toNat + b.toNat))

/-- 8XY5 and 8XY7: 1 iff the minuend is strictly greater (R149, R151). -/
def flagNoBorrow (minuend subtrahend : Byte) : Byte := flagByte (decide (subtrahend.toNat < minuend.toNat))

/-- 8XY6: the bit shifted out at bit 0 (R150). -/
def flagShiftedOutRight (a : Byte) : Byte := a &&& 1

/-- 8XYE: the bit shifted out at bit 7 (R152). -/
def flagShiftedOutLeft (a : Byte) : Byte := (a >>> 7) &&& 1

/-- DXYN: 1 iff some toggle turned a set pixel off (44_display.md R196). -/
def flagCollision (c : Bool) : Byte := flagByte c

end Sys2Proof.Machine
end

