-- ==== Sys2Proof/Machine/Memory.lean ====
section
/-! DEFINITION. Memory as plain data (20_memory.md R50 to R67): a list of cells in one canonical form over a background,
which is what an unlisted address reads as. -/

namespace Sys2Proof.Machine

/-- What an unlisted address reads as: the reset contents, FONT at 0x000 to 0x04F and 0 elsewhere (R54, R55;
70_reset_and_hazards.md R272). -/
def background (font : Vector Byte 80) (a : Nat) : Byte :=
  if h : a < 80 then font[a] else 0

/-- The canonical form: addresses strictly rising, inside the 4096 bytes of R50, and no cell equal to the background. -/
abbrev Memory.wf (bg : Nat → Byte) (m : List Host.Cell) : Prop :=
  m.Pairwise (fun c d => c.1 < d.1) ∧ ∀ c ∈ m, c.1 < 4096 ∧ c.2 ≠ bg c.1

/-- The byte at an address. -/
def Memory.read (bg : Nat → Byte) : List Host.Cell → Nat → Byte
  | [], a => bg a
  | c :: cs, a => if c.1 = a then c.2 else Memory.read bg cs a

/-- Removes the cell at an address, or lists one there, keeping the addresses rising. -/
def Memory.put (a : Nat) (o : Option Byte) : List Host.Cell → List Host.Cell
  | [] => o.elim [] (fun v => [(a, v)])
  | c :: cs =>
    if a < c.1 then o.elim (c :: cs) (fun v => (a, v) :: c :: cs)
    else if a = c.1 then o.elim cs (fun v => (a, v) :: cs)
    else c :: Memory.put a o cs

/-- Writes a byte: writing what an unlisted address reads as removes the cell. -/
def Memory.write (bg : Nat → Byte) (a : Nat) (v : Byte) (m : List Host.Cell) : List Host.Cell :=
  Memory.put a (if v = bg a then none else some v) m

/-- The memory that holds `bytes` from address `base` on and the background elsewhere (R272). -/
def Memory.image (bg : Nat → Byte) : Nat → List Byte → List Host.Cell
  | _, [] => []
  | base, b :: bs => if b = bg base then Memory.image bg (base + 1) bs else (base, b) :: Memory.image bg (base + 1) bs

end Sys2Proof.Machine
end

