-- ==== Sys2Proof/Machine/Plane.lean ====
section
/-! DEFINITION. The display plane as plain data (10_state.md R35): the lit pixels in one canonical order, so that equal
planes are equal data. -/

namespace Sys2Proof.Machine

/-- The order in which lit pixels are listed: by column, then by row. -/
abbrev Pixel.before (p q : Pixel) : Prop := p.1 < q.1 ∨ (p.1 = q.1 ∧ p.2 < q.2)

/-- The canonical form: lit pixels in rising order, each inside the W × H plane (R35). -/
abbrev Plane.wf (w h : Nat) (fb : List Pixel) : Prop :=
  fb.Pairwise Pixel.before ∧ ∀ p ∈ fb, p.1 < w ∧ p.2 < h

/-- Flips one pixel: `fb[x][y] <- 1 - old` (44_display.md R190). -/
def Plane.flip (p : Pixel) : List Pixel → List Pixel
  | [] => [p]
  | q :: qs => if p = q then qs else if Pixel.before p q then p :: q :: qs else q :: Plane.flip p qs

/-- Whether a pixel is lit. -/
def Plane.lit (fb : List Pixel) (p : Pixel) : Bool := decide (p ∈ fb)

/-- The pixel that integer coordinates name: each wrapped by the mathematical modulus (R190, R193, decision D36). -/
def Plane.wrap (w h : Nat) (px py : Int) : Pixel := ((px % (w : Int)).toNat, (py % (h : Int)).toNat)

end Sys2Proof.Machine
end

