-- ==== Sys2Proof/Machine/Ops.lean ====
section
/-! DEFINITION. The named operations over the state: registers, memory, the stack, the output trace, the display
primitives, the random port, and the entry into HALTED, which every fatal condition shares. -/

namespace Sys2Proof.Machine

/-- What an instruction or a step answers. -/
abbrev Result := Host.Outcome State Fault Refusal

/-! ### The output trace -/

/-- `emit`: appends one event to the output trace (00_scope.md R13; 10_state.md R40). -/
def State.emit (e : Event) (s : State) : State := { s with trace := s.trace ++ [e] }

/-! ### Fatal conditions -/

/-- The numeric codes of the fatal conditions (60_exceptions.md R230, decision D19). -/
def FaultCode.number : FaultCode → Nat
  | .stackOverflow => 1
  | .stackUnderflow => 2
  | .memoryOutOfRange => 3
  | .fetchOutOfRange => 4
  | .loadError => 5

/-- The numeric code of the non-fatal condition (R230). -/
def DiagCode.number : DiagCode → Nat
  | .unknownOpcode => 16

/-- `raise Fatal(code, addr, word)`: run_state becomes HALTED with the record, then the Fault event is emitted; nothing
else is saved or changed (R231). There is no return from it but a load (R235). -/
def State.raiseFatal (c : FaultCode) (addr word : Word) (s : State) : State :=
  State.emit (.fault ⟨c, addr, word⟩) { s with runState := .halted ⟨c, addr, word⟩ }

/-- ia, the address of the instruction being executed: during the execute phase pc holds ia + 2
(10_state.md R23; 40_fetch_execute.md R102; assumption log 7). -/
def State.ia (s : State) : Word := s.pc - 2

/-- The fault an instruction's own execution raises: its record holds ia and the instruction's word (R230). -/
def State.fatalAt (c : FaultCode) (word : Word) (s : State) : State := s.raiseFatal c s.ia word

/-! ### General registers -/

/-- `V[x]` (R20). -/
def State.getV (x : RegIx) (s : State) : Byte := s.V[x]

/-- `V[x] <- v` (R20: no register is hardwired). -/
def State.setV (x : RegIx) (v : Byte) (s : State) : State := { s with V := s.V.set x v }

/-- Writes the result to Vx, then the flag to VF: where x is F the flag is what VF keeps (42_alu.md R141). -/
def State.setResultThenFlag (x : RegIx) (result flag : Byte) (s : State) : State :=
  (s.setV x result).setV VF flag

/-! ### The program counter -/

/-- `pc <- target`. -/
def State.setPc (a : Word) (s : State) : State := { s with pc := a }

/-- `skip()`: one more instruction width (41_control_flow.md R120). -/
def State.skip (s : State) : State := { s with pc := s.pc + 2 }

/-- Skips where the condition holds. -/
def State.skipIf (c : Bool) (s : State) : State := if c then s.skip else s

/-! ### The call stack (10_state.md R27, R28) -/

/-- Pushes pc and counts it, or none where all 16 entries are in use (41_control_flow.md R123). -/
def State.pushPc? (s : State) : Option State :=
  if h : s.sp.val < 16 then
    some { s with stack := s.stack.set s.sp.val s.pc, sp := ⟨s.sp.val + 1, Nat.succ_lt_succ h⟩ }
  else none

/-- Pops the top entry into pc, or none where no entry is in use; the entry is not cleared (R121). -/
def State.popPc? (s : State) : Option State :=
  if h : 0 < s.sp.val then
    have lt : s.sp.val - 1 < 16 := by omega
    some { s with sp := ⟨s.sp.val - 1, Nat.lt_succ_of_lt lt⟩, pc := s.stack[s.sp.val - 1] }
  else none

/-! ### Memory (20_memory.md R12, R53) -/

/-- What an unlisted address of this block reads as. -/
def State.bg (s : State) : Nat → Byte := background s.cfg.font

/-- `MemRead(a, 1)`; the caller has checked a ≤ 0xFFF. -/
def State.memRead (a : Nat) (s : State) : Byte := Memory.read s.bg s.mem a

/-- `MemWrite(a, 1, v)`; the caller has checked a ≤ 0xFFF. -/
def State.memWrite (a : Nat) (v : Byte) (s : State) : State := { s with mem := Memory.write s.bg a v s.mem }

/-- V0..Vx, in the order the block transfers take them (43_index_memory.md R175, R176). -/
def regsUpTo (x : RegIx) : List RegIx := (List.finRange 16).filter (fun i => decide (i ≤ x))

/-- `for i in 0 .. x: MemWrite(base + i, 1, V[i])` (R175). -/
def State.storeRegs (base : Nat) (is : List RegIx) (s : State) : State :=
  is.foldl (fun t i => t.memWrite (base + i.val) (t.getV i)) s

/-- `for i in 0 .. x: V[i] <- MemRead(base + i, 1)` (R176). -/
def State.loadRegs (base : Nat) (is : List RegIx) (s : State) : State :=
  is.foldl (fun t i => t.setV i (t.memRead (base + i.val))) s

/-! ### The display primitives (44_display.md R190 to R192) -/

/-- `toggle(px, py)`: flips the wrapped pixel, emits DispToggle, and answers whether the pixel became unset (R190). -/
def State.toggle (px py : Int) (s : State) : State × Bool :=
  let p := Plane.wrap s.cfg.width s.cfg.height px py
  (State.emit (.dispToggle p.1 p.2) { s with fb := Plane.flip p s.fb }, Plane.lit s.fb p)

/-- `clear()`: every pixel to 0, and DispClear (R191). -/
def State.clearPlane (s : State) : State := State.emit .dispClear { s with fb := [] }

/-- `present()`: DispPresent, and no change of state (R192). -/
def State.present (s : State) : State := s.emit .dispPresent

/-- Toggles the points in order; whether any toggle turned a set pixel off (R195, R196). -/
def State.toggleAll : List (Nat × Nat) → State → State × Bool
  | [], s => (s, false)
  | p :: ps, s =>
    let r := s.toggle p.1 p.2
    let q := State.toggleAll ps r.1
    (q.1, r.2 || q.2)

/-- The set bits of a sprite byte, bit 0 being the most significant (R195). -/
def spriteBits (b : Byte) : List Nat := (List.range 8).filter (fun bit => b.getLsbD (7 - bit))

/-- The points a sprite of h rows at memory address `base` toggles at (xs, ys), in order: rows top to bottom, bits
most significant first (R195, R198). Toggling changes no memory, so the bytes are read beforehand. -/
def State.spritePoints (base xs ys h : Nat) (s : State) : List (Nat × Nat) :=
  (List.range h).flatMap fun row =>
    (spriteBits (s.memRead (base + row))).map fun bit => (xs + bit, ys + row)

/-! ### Inputs -/

/-- `draw_rnd()`: the next byte on the `rnd` port, a free value where none waits; exactly one draw (00_scope.md R9;
42_alu.md R153; assumption log 3). -/
def State.drawRnd (s : State) : Byte × State :=
  match s.rndIn with
  | b :: bs => (b, { s with rndIn := bs, draws := s.draws + 1 })
  | [] => (Config.randomByte s.draws, { s with draws := s.draws + 1 })

end Sys2Proof.Machine
end

