-- ==== Sys2Proof/Machine/Operands.lean ====
section
/-! DEFINITION. Every operand form of the instruction set: immediates, register indirect through I, the scaled glyph
address, key operands and BCD digits; and the arithmetic on operands (42_alu.md R140). -/

namespace Sys2Proof.Machine

/-- `zext_16(nnn)` (30_encoding.md R72). -/
def zext16 (nnn : Addr12) : Word := nnn.zeroExtend 16

/-- Register indirect through I: the address of the i-th byte, an unbounded natural number (43_index_memory.md R170). -/
def State.ea (i : Nat) (s : State) : Nat := s.I.toNat + i

/-- Whether an access of `count` bytes through I touches an address beyond 0xFFF; one of no byte touches none (20_memory.md R53). -/
def State.outOfRange (count : Nat) (s : State) : Bool := decide (0 < count ∧ 0xFFF < s.ea (count - 1))

/-- The address of glyph a: `a * 5`, a not masked (R173). -/
def glyphAddress (a : Byte) : Word := BitVec.ofNat 16 (a.toNat * 5)

/-- `(I + a) mod 65536` (R172). -/
def indexSum (i : Word) (a : Byte) : Word := BitVec.ofNat 16 (i.toNat + a.toNat)

/-- JUMP_V0_MASK as a 16-bit value (00_scope.md R8). -/
def jumpMaskValue : JumpMask → Word
  | .mask8 => 0x0FF
  | .mask12 => 0xFFF

/-- `(zext_16(nnn) + V0) & JUMP_V0_MASK`, the sum before the mask (41_control_flow.md R128). -/
def jumpV0Target (m : JumpMask) (nnn : Addr12) (v0 : Byte) : Word :=
  BitVec.ofNat 16 (nnn.toNat + v0.toNat) &&& jumpMaskValue m

/-- Whether a names a key that the frame's sample shows pressed: no key is named by a value above 15
(45_timers_input.md R210, decision D13). -/
def State.keyPressed (a : Byte) (s : State) : Bool := decide (a.toNat < 16) && s.keys.getLsbD a.toNat

/-- The lowest-numbered pressed key of a key vector (60_exceptions.md R245, decision D12). -/
def lowestKey (keys : Word) : Option Nat := (List.range 16).find? (fun k => keys.getLsbD k)

/-- The hundreds, tens and ones digits (43_index_memory.md R174). -/
def bcdHundreds (a : Byte) : Byte := BitVec.ofNat 8 (a.toNat / 100)
def bcdTens (a : Byte) : Byte := BitVec.ofNat 8 (a.toNat / 10 % 10)
def bcdOnes (a : Byte) : Byte := BitVec.ofNat 8 (a.toNat % 10)

/-- A sum, exact and then narrowed mod 256 (42_alu.md R140). -/
def aluSum (a b : Byte) : Byte := BitVec.ofNat 8 (a.toNat + b.toNat)

/-- A difference, exact and then narrowed mod 256 (R140). -/
def aluDifference (a b : Byte) : Byte := BitVec.ofInt 8 ((a.toNat : Int) - (b.toNat : Int))

end Sys2Proof.Machine
end

