-- ==== Sys2Proof/Machine/Alu.lean ====
section
/-! DEFINITION. Register loads, arithmetic, logic, shifts and random (42_alu.md R142 to R153). Every operand is read
before anything is written (R141). -/

namespace Sys2Proof.Machine

/-- R142 LD Vx, kk. -/
def execLdByte (x : RegIx) (kk : Byte) (s : State) : Result := .next (s.setV x kk)

/-- R143 ADD Vx, kk: no flag. -/
def execAddByte (x : RegIx) (kk : Byte) (s : State) : Result := .next (s.setV x (aluSum (s.getV x) kk))

/-- R144 LD Vx, Vy. -/
def execLdReg (x y : RegIx) (s : State) : Result := .next (s.setV x (s.getV y))

/-- R145 OR Vx, Vy: no flag. -/
def execOrReg (x y : RegIx) (s : State) : Result := .next (s.setV x (s.getV x ||| s.getV y))

/-- R146 AND Vx, Vy: no flag. -/
def execAndReg (x y : RegIx) (s : State) : Result := .next (s.setV x (s.getV x &&& s.getV y))

/-- R147 XOR Vx, Vy: no flag. -/
def execXorReg (x y : RegIx) (s : State) : Result := .next (s.setV x (s.getV x ^^^ s.getV y))

/-- R148 ADD Vx, Vy: the flag is the carry. -/
def execAddReg (x y : RegIx) (s : State) : Result :=
  .next (s.setResultThenFlag x (aluSum (s.getV x) (s.getV y)) (flagCarry (s.getV x) (s.getV y)))

/-- R149 SUB Vx, Vy: Vx − Vy, the flag strict. -/
def execSubReg (x y : RegIx) (s : State) : Result :=
  .next (s.setResultThenFlag x (aluDifference (s.getV x) (s.getV y)) (flagNoBorrow (s.getV x) (s.getV y)))

/-- R150 SHR Vx: Vy is not read. -/
def execShr (x _ignY : RegIx) (s : State) : Result :=
  .next (s.setResultThenFlag x (s.getV x >>> 1) (flagShiftedOutRight (s.getV x)))

/-- R151 SUBN Vx, Vy: Vy − Vx, the flag strict. -/
def execSubnReg (x y : RegIx) (s : State) : Result :=
  .next (s.setResultThenFlag x (aluDifference (s.getV y) (s.getV x)) (flagNoBorrow (s.getV y) (s.getV x)))

/-- R152 SHL Vx: Vy is not read. -/
def execShl (x _ignY : RegIx) (s : State) : Result :=
  .next (s.setResultThenFlag x (s.getV x <<< 1) (flagShiftedOutLeft (s.getV x)))

/-- R153 RND Vx, kk: one draw, masked with kk. -/
def execRnd (x : RegIx) (kk : Byte) (s : State) : Result :=
  let d := s.drawRnd
  .next (d.2.setV x (d.1 &&& kk))

end Sys2Proof.Machine
end

