-- ==== Sys2Proof/Syntax.lean ====
section
/-! DEFINITION. The instructions: one constructor per row of the opcode map (30_encoding.md R76) and one for the
unrecognized class (R77). Bits that a pattern ignores (`?`, and the y field of SHR and SHL) are kept as a field, because
a fault record holds the whole instruction word (10_state.md R34; assumption log 4). -/

namespace Sys2Proof

inductive Instr where
  /-- `0?E0` CLS. -/
  | cls (ign : Nibble)
  /-- `0?EE` RET. -/
  | ret (ign : Nibble)
  /-- `1NNN` JP nnn. -/
  | jp (nnn : Addr12)
  /-- `2NNN` CALL nnn. -/
  | call (nnn : Addr12)
  /-- `3xkk` SE Vx, kk. -/
  | seByte (x : RegIx) (kk : Byte)
  /-- `4xkk` SNE Vx, kk. -/
  | sneByte (x : RegIx) (kk : Byte)
  /-- `5xy?` SE Vx, Vy. -/
  | seReg (x y : RegIx) (ign : Nibble)
  /-- `6xkk` LD Vx, kk. -/
  | ldByte (x : RegIx) (kk : Byte)
  /-- `7xkk` ADD Vx, kk. -/
  | addByte (x : RegIx) (kk : Byte)
  /-- `8xy0` LD Vx, Vy. -/
  | ldReg (x y : RegIx)
  /-- `8xy1` OR Vx, Vy. -/
  | orReg (x y : RegIx)
  /-- `8xy2` AND Vx, Vy. -/
  | andReg (x y : RegIx)
  /-- `8xy3` XOR Vx, Vy. -/
  | xorReg (x y : RegIx)
  /-- `8xy4` ADD Vx, Vy. -/
  | addReg (x y : RegIx)
  /-- `8xy5` SUB Vx, Vy. -/
  | subReg (x y : RegIx)
  /-- `8xy6` SHR Vx; the y field is ignored. -/
  | shr (x ignY : RegIx)
  /-- `8xy7` SUBN Vx, Vy. -/
  | subnReg (x y : RegIx)
  /-- `8xyE` SHL Vx; the y field is ignored. -/
  | shl (x ignY : RegIx)
  /-- `9xy?` SNE Vx, Vy. -/
  | sneReg (x y : RegIx) (ign : Nibble)
  /-- `ANNN` LD I, nnn. -/
  | ldI (nnn : Addr12)
  /-- `BNNN` JP V0, nnn. -/
  | jpV0 (nnn : Addr12)
  /-- `Cxkk` RND Vx, kk. -/
  | rnd (x : RegIx) (kk : Byte)
  /-- `Dxyn` DRW Vx, Vy, n. -/
  | drw (x y : RegIx) (n : Nibble)
  /-- `Ex9E` SKP Vx. -/
  | skp (x : RegIx)
  /-- `ExA1` SKNP Vx. -/
  | sknp (x : RegIx)
  /-- `Fx07` LD Vx, DT. -/
  | ldVxDT (x : RegIx)
  /-- `Fx0A` LD Vx, K. -/
  | ldVxK (x : RegIx)
  /-- `Fx15` LD DT, Vx. -/
  | ldDTVx (x : RegIx)
  /-- `Fx18` LD ST, Vx. -/
  | ldSTVx (x : RegIx)
  /-- `Fx1E` ADD I, Vx. -/
  | addI (x : RegIx)
  /-- `Fx29` LD F, Vx. -/
  | ldF (x : RegIx)
  /-- `Fx33` LD B, Vx. -/
  | ldB (x : RegIx)
  /-- `Fx55` LD [I], Vx. -/
  | ldMemVx (x : RegIx)
  /-- `Fx65` LD Vx, [I]. -/
  | ldVxMem (x : RegIx)
  /-- A word no row of R76 matches (R77, R104). -/
  | unknown (w : Word)
  deriving DecidableEq, Repr

end Sys2Proof
end

