-- ==== Sys2Proof/WellFormed.lean ====
section
/-! DEFINITION. Which terms of `Instr` are instructions. Every operand has its field's own type, so the one check is
that `unknown` holds a word of the unrecognized class (30_encoding.md R77). -/

namespace Sys2Proof

/-- R77, the explicit list: group 0 without low byte E0 or EE; group 8 without low nibble 0 to 7 or E; group E without
low byte 9E or A1; group F without the nine low bytes of R76. -/
def isUnrecognized (w : Word) : Bool :=
  let op := (w.extractLsb' 12 4).toNat
  let kk := (w.extractLsb' 0 8).toNat
  let n := (w.extractLsb' 0 4).toNat
  (op == 0x0 && !(kk == 0xE0 || kk == 0xEE))
    || (op == 0x8 && [0x8, 0x9, 0xA, 0xB, 0xC, 0xD, 0xF].contains n)
    || (op == 0xE && !(kk == 0x9E || kk == 0xA1))
    || (op == 0xF && !([0x07, 0x0A, 0x15, 0x18, 0x1E, 0x29, 0x33, 0x55, 0x65].contains kk))

/-- A well-formed instruction (R72: every register index and immediate is valid; R77 for `unknown`). -/
def Instr.wf : Instr → Bool
  | .unknown w => isUnrecognized w
  | .cls _ | .ret _ | .jp _ | .call _ | .seByte _ _ | .sneByte _ _ | .seReg _ _ _ | .ldByte _ _ | .addByte _ _
  | .ldReg _ _ | .orReg _ _ | .andReg _ _ | .xorReg _ _ | .addReg _ _ | .subReg _ _ | .shr _ _ | .subnReg _ _
  | .shl _ _ | .sneReg _ _ _ | .ldI _ | .jpV0 _ | .rnd _ _ | .drw _ _ _ | .skp _ | .sknp _ | .ldVxDT _ | .ldVxK _
  | .ldDTVx _ | .ldSTVx _ | .addI _ | .ldF _ | .ldB _ | .ldMemVx _ | .ldVxMem _ => true

end Sys2Proof
end

