-- ==== Sys2Proof/Decode.lean ====
section
/-! DEFINITION. Decoding and encoding (30_encoding.md R70 to R79). Decoding a word is total; decoding bytes rejects, by
name, only a sequence too short to hold a word. -/

namespace Sys2Proof

/-! ### Fields of the instruction word (R71) -/

/-- op = w[15:12]. -/
def fieldOp (w : Word) : Nibble := w.extractLsb' 12 4
/-- w[11:8] as plain bits, where a pattern ignores them. -/
def fieldHi (w : Word) : Nibble := w.extractLsb' 8 4
/-- x = w[11:8], a register index. -/
def fieldX (w : Word) : RegIx := (w.extractLsb' 8 4).toFin
/-- y = w[7:4], a register index. -/
def fieldY (w : Word) : RegIx := (w.extractLsb' 4 4).toFin
/-- n = w[3:0]. -/
def fieldN (w : Word) : Nibble := w.extractLsb' 0 4
/-- kk = w[7:0]. -/
def fieldKK (w : Word) : Byte := w.extractLsb' 0 8
/-- nnn = w[11:0]. -/
def fieldNNN (w : Word) : Addr12 := w.extractLsb' 0 12

/-! ### The two-level groups, keyed by the low byte or the low nibble (R73, R74) -/

/-- Group 0, keyed by kk; bits 11:8 are ignored. -/
def decodeGroup0 (w : Word) : Instr :=
  match (fieldKK w).toNat with
  | 0xE0 => .cls (fieldHi w)
  | 0xEE => .ret (fieldHi w)
  | _ => .unknown w

/-- Group 8, keyed by n. -/
def decodeGroup8 (w : Word) : Instr :=
  match (fieldN w).toNat with
  | 0x0 => .ldReg (fieldX w) (fieldY w)
  | 0x1 => .orReg (fieldX w) (fieldY w)
  | 0x2 => .andReg (fieldX w) (fieldY w)
  | 0x3 => .xorReg (fieldX w) (fieldY w)
  | 0x4 => .addReg (fieldX w) (fieldY w)
  | 0x5 => .subReg (fieldX w) (fieldY w)
  | 0x6 => .shr (fieldX w) (fieldY w)
  | 0x7 => .subnReg (fieldX w) (fieldY w)
  | 0xE => .shl (fieldX w) (fieldY w)
  | _ => .unknown w

/-- Group E, keyed by kk. -/
def decodeGroupE (w : Word) : Instr :=
  match (fieldKK w).toNat with
  | 0x9E => .skp (fieldX w)
  | 0xA1 => .sknp (fieldX w)
  | _ => .unknown w

/-- Group F, keyed by kk. -/
def decodeGroupF (w : Word) : Instr :=
  match (fieldKK w).toNat with
  | 0x07 => .ldVxDT (fieldX w)
  | 0x0A => .ldVxK (fieldX w)
  | 0x15 => .ldDTVx (fieldX w)
  | 0x18 => .ldSTVx (fieldX w)
  | 0x1E => .addI (fieldX w)
  | 0x29 => .ldF (fieldX w)
  | 0x33 => .ldB (fieldX w)
  | 0x55 => .ldMemVx (fieldX w)
  | 0x65 => .ldVxMem (fieldX w)
  | _ => .unknown w

/-- Primary dispatch on op, then the secondary key of the four two-level groups (R73 to R77). -/
def decode (w : Word) : Instr :=
  match (fieldOp w).toNat with
  | 0x0 => decodeGroup0 w
  | 0x1 => .jp (fieldNNN w)
  | 0x2 => .call (fieldNNN w)
  | 0x3 => .seByte (fieldX w) (fieldKK w)
  | 0x4 => .sneByte (fieldX w) (fieldKK w)
  | 0x5 => .seReg (fieldX w) (fieldY w) (fieldN w)
  | 0x6 => .ldByte (fieldX w) (fieldKK w)
  | 0x7 => .addByte (fieldX w) (fieldKK w)
  | 0x8 => decodeGroup8 w
  | 0x9 => .sneReg (fieldX w) (fieldY w) (fieldN w)
  | 0xA => .ldI (fieldNNN w)
  | 0xB => .jpV0 (fieldNNN w)
  | 0xC => .rnd (fieldX w) (fieldKK w)
  | 0xD => .drw (fieldX w) (fieldY w) (fieldN w)
  | 0xE => decodeGroupE w
  | _ => decodeGroupF w

/-- The word of two consecutive bytes, big-endian: the byte at the lower address is bits 15:8 (20_memory.md R52). -/
def bigEndian (hi lo : Byte) : Word := hi ++ lo

/-- Why bytes hold no instruction. -/
inductive DecodeError where
  /-- Fewer than the two bytes of a word (R70). -/
  | truncated
  deriving DecidableEq, Repr

/-- The instruction at the front of a byte sequence, and the bytes after it (R70, R52). -/
def decodeBytes : List Byte → Except DecodeError (Instr × List Byte)
  | hi :: lo :: rest => .ok (decode (bigEndian hi lo), rest)
  | [_] => .error .truncated
  | [] => .error .truncated

/-! ### The encoder, from the patterns of R76 -/

/-- A pattern `<op>NNN`. -/
def encNNN (op : Nat) (nnn : Addr12) : Word := BitVec.ofNat 16 (op * 0x1000 + nnn.toNat)
/-- A pattern `<op>xkk`; also the two-digit secondary keys, which stand where kk stands. -/
def encXKK (op : Nat) (x : Nat) (kk : Byte) : Word := BitVec.ofNat 16 (op * 0x1000 + x * 0x100 + kk.toNat)
/-- A pattern `<op>xyn`; also the one-digit secondary keys, which stand where n stands. -/
def encXYN (op : Nat) (x y : RegIx) (n : Nibble) : Word :=
  BitVec.ofNat 16 (op * 0x1000 + x.val * 0x100 + y.val * 0x10 + n.toNat)

/-- The word of an instruction (R76). -/
def encode : Instr → Word
  | .cls ign => encXKK 0x0 ign.toNat 0xE0
  | .ret ign => encXKK 0x0 ign.toNat 0xEE
  | .jp nnn => encNNN 0x1 nnn
  | .call nnn => encNNN 0x2 nnn
  | .seByte x kk => encXKK 0x3 x kk
  | .sneByte x kk => encXKK 0x4 x kk
  | .seReg x y ign => encXYN 0x5 x y ign
  | .ldByte x kk => encXKK 0x6 x kk
  | .addByte x kk => encXKK 0x7 x kk
  | .ldReg x y => encXYN 0x8 x y 0x0
  | .orReg x y => encXYN 0x8 x y 0x1
  | .andReg x y => encXYN 0x8 x y 0x2
  | .xorReg x y => encXYN 0x8 x y 0x3
  | .addReg x y => encXYN 0x8 x y 0x4
  | .subReg x y => encXYN 0x8 x y 0x5
  | .shr x ignY => encXYN 0x8 x ignY 0x6
  | .subnReg x y => encXYN 0x8 x y 0x7
  | .shl x ignY => encXYN 0x8 x ignY 0xE
  | .sneReg x y ign => encXYN 0x9 x y ign
  | .ldI nnn => encNNN 0xA nnn
  | .jpV0 nnn => encNNN 0xB nnn
  | .rnd x kk => encXKK 0xC x kk
  | .drw x y n => encXYN 0xD x y n
  | .skp x => encXKK 0xE x 0x9E
  | .sknp x => encXKK 0xE x 0xA1
  | .ldVxDT x => encXKK 0xF x 0x07
  | .ldVxK x => encXKK 0xF x 0x0A
  | .ldDTVx x => encXKK 0xF x 0x15
  | .ldSTVx x => encXKK 0xF x 0x18
  | .addI x => encXKK 0xF x 0x1E
  | .ldF x => encXKK 0xF x 0x29
  | .ldB x => encXKK 0xF x 0x33
  | .ldMemVx x => encXKK 0xF x 0x55
  | .ldVxMem x => encXKK 0xF x 0x65
  | .unknown w => w

/-! ### Words numbered as the opcode table numbers them -/

/-- The word whose low nbits bits are those of w, every higher bit 0. One word is the longest instruction (R70). -/
def tableWord (nbits w : Nat) : Word := BitVec.ofNat 16 (w % 2 ^ nbits)

/-- The two bytes of a word as memory holds them, the high byte first (R52). -/
def wordBytes (w : Word) : List Byte := [w.extractLsb' 8 8, w.extractLsb' 0 8]

/-- What the decoder reads from a table word laid out in memory order. -/
def decodeTableWord (nbits w : Nat) : Option Instr :=
  match decodeBytes (wordBytes (tableWord nbits w)) with
  | .ok (i, _) => some i
  | .error _ => none

end Sys2Proof
end

