-- ==== Sys2Proof/Machine/Control.lean ====
section
/-! DEFINITION. Control transfer (41_control_flow.md R121 to R128) and the unrecognized opcode (40_fetch_execute.md R104).
On entry to every meaning pc is already ia + 2 (R102). -/

namespace Sys2Proof.Machine

/-- R121 RET: pops into pc; StackUnderflow where the stack is empty. -/
def execRet (ign : Nibble) (s : State) : Result :=
  match s.popPc? with
  | some t => .next t
  | none => .next (s.fatalAt .stackUnderflow (encode (.ret ign)))

/-- R122 JP nnn. -/
def execJp (nnn : Addr12) (s : State) : Result := .next (s.setPc (zext16 nnn))

/-- R123 CALL nnn: pushes the advanced pc; StackOverflow where 16 entries are in use. -/
def execCall (nnn : Addr12) (s : State) : Result :=
  match s.pushPc? with
  | some t => .next (t.setPc (zext16 nnn))
  | none => .next (s.fatalAt .stackOverflow (encode (.call nnn)))

/-- R124 SE Vx, kk. -/
def execSeByte (x : RegIx) (kk : Byte) (s : State) : Result := .next (s.skipIf (decide (s.getV x = kk)))

/-- R125 SNE Vx, kk. -/
def execSneByte (x : RegIx) (kk : Byte) (s : State) : Result := .next (s.skipIf (decide (s.getV x ≠ kk)))

/-- R126 SE Vx, Vy; the low nibble is ignored. -/
def execSeReg (x y : RegIx) (_ign : Nibble) (s : State) : Result := .next (s.skipIf (decide (s.getV x = s.getV y)))

/-- R127 SNE Vx, Vy; the low nibble is ignored. -/
def execSneReg (x y : RegIx) (_ign : Nibble) (s : State) : Result := .next (s.skipIf (decide (s.getV x ≠ s.getV y)))

/-- R128 JP V0, nnn. -/
def execJpV0 (nnn : Addr12) (s : State) : Result :=
  .next (s.setPc (jumpV0Target s.cfg.jumpMask nnn (s.getV 0)))

/-- R104: emits the diagnostic and changes nothing else. -/
def execUnknown (w : Word) (s : State) : Result := .next (s.emit (.diag .unknownOpcode s.ia w))

end Sys2Proof.Machine
end

