-- ==== Sys2Proof/Machine/Display.lean ====
section
/-! DEFINITION. The display instructions (44_display.md R194, R195). -/

namespace Sys2Proof.Machine

/-- R194 CLS: clears, presents nothing. -/
def execCls (_ign : Nibble) (s : State) : Result := .next s.clearPlane

/-- R195 DRW Vx, Vy, n: coordinates read first, the bounds checked before any toggle, VF assigned once after all
toggles, then one present. -/
def execDrw (x y : RegIx) (n : Nibble) (s : State) : Result :=
  if s.outOfRange n.toNat then .next (s.fatalAt .memoryOutOfRange (encode (.drw x y n)))
  else
    let r := s.toggleAll (s.spritePoints (s.ea 0) (s.getV x).toNat (s.getV y).toNat n.toNat)
    .next (r.1.setV VF (flagCollision r.2)).present

end Sys2Proof.Machine
end

