-- ==== Sys2Proof/Machine/Index.lean ====
section
/-! DEFINITION. The index register and memory transfers (43_index_memory.md R171 to R176). Every address is checked
before any access (20_memory.md R53), and I is never modified by an access (R170). -/

namespace Sys2Proof.Machine

/-- R171 LD I, nnn. -/
def execLdI (nnn : Addr12) (s : State) : Result := .next { s with I := zext16 nnn }

/-- R172 ADD I, Vx: mod 65536, unchecked, no flag. -/
def execAddI (x : RegIx) (s : State) : Result := .next { s with I := indexSum s.I (s.getV x) }

/-- R173 LD F, Vx. -/
def execLdF (x : RegIx) (s : State) : Result := .next { s with I := glyphAddress (s.getV x) }

/-- R174 LD B, Vx: the three digits at I, I + 1, I + 2. -/
def execLdB (x : RegIx) (s : State) : Result :=
  if s.outOfRange 3 then .next (s.fatalAt .memoryOutOfRange (encode (.ldB x)))
  else
    let a := s.getV x
    .next (((s.memWrite (s.ea 0) (bcdHundreds a)).memWrite (s.ea 1) (bcdTens a)).memWrite (s.ea 2) (bcdOnes a))

/-- R175 LD [I], Vx: nothing at all in NoOp mode. -/
def execLdMemVx (x : RegIx) (s : State) : Result :=
  match s.cfg.regBlockMode with
  | .noOp => .next s
  | .copy =>
    if s.outOfRange (x.val + 1) then .next (s.fatalAt .memoryOutOfRange (encode (.ldMemVx x)))
    else .next (s.storeRegs (s.ea 0) (regsUpTo x))

/-- R176 LD Vx, [I]: nothing at all in NoOp mode. -/
def execLdVxMem (x : RegIx) (s : State) : Result :=
  match s.cfg.regBlockMode with
  | .noOp => .next s
  | .copy =>
    if s.outOfRange (x.val + 1) then .next (s.fatalAt .memoryOutOfRange (encode (.ldVxMem x)))
    else .next (s.loadRegs (s.ea 0) (regsUpTo x))

end Sys2Proof.Machine
end

