-- ==== Sys2Proof/Machine/Input.lean ====
section
/-! DEFINITION. Key skips, timer access and the await-key opcode (45_timers_input.md R210 to R215). -/

namespace Sys2Proof.Machine

/-- R210 SKP Vx. -/
def execSkp (x : RegIx) (s : State) : Result := .next (s.skipIf (s.keyPressed (s.getV x)))

/-- R211 SKNP Vx. -/
def execSknp (x : RegIx) (s : State) : Result := .next (s.skipIf (!s.keyPressed (s.getV x)))

/-- R212 LD Vx, DT. -/
def execLdVxDT (x : RegIx) (s : State) : Result := .next (s.setV x s.DT)

/-- R213 LD Vx, K: sets the input-wait latch; Vx itself is written when the wait resolves (60_exceptions.md R245). -/
def execLdVxK (x : RegIx) (s : State) : Result := .next { s with runState := .awaitingKey x }

/-- R214 LD DT, Vx. -/
def execLdDTVx (x : RegIx) (s : State) : Result := .next { s with DT := s.getV x }

/-- R215 LD ST, Vx: the tone is not touched. -/
def execLdSTVx (x : RegIx) (s : State) : Result := .next { s with ST := s.getV x }

end Sys2Proof.Machine
end

