-- ==== Sys2Proof/Machine/Frame.lean ====
section
/-! DEFINITION. What a frame does before its cycles (40_fetch_execute.md R110): the key sample, the timer and sound state
machine (60_exceptions.md R240, R241) and the input-wait controller (R243 to R245). -/

namespace Sys2Proof.Machine

/-- One decrement, floored at zero (R240). -/
def countdown (t : Byte) : Byte := if 0 < t.toNat then t - 1 else t

/-- `tone_decision()`: the command is sent whether or not it differs from the last one (R241). -/
def State.toneDecision (s : State) : State :=
  if 0 < s.ST.toNat then State.emit (.tonePlay s.cfg.toneFreq) { s with toneOn := true }
  else State.emit .toneStop { s with toneOn := false }

/-- `timer_step()`: both timers, then the tone decision (R240). -/
def State.timerStep (s : State) : State :=
  State.toneDecision { s with DT := countdown s.DT, ST := countdown s.ST }

/-- `await_resolve(r)`: the lowest pressed key's code into register r, and RUNNING; nothing where no key is pressed (R245). -/
def State.awaitResolve (r : RegIx) (s : State) : State :=
  match lowestKey s.keys with
  | some k => { s.setV r (BitVec.ofNat 8 k) with runState := .running }
  | none => s

/-- The start of `frame_tick(k)` (R110): the sample in every run state, then by run state nothing (R111), the poll (R112),
or the timer step with CYCLES_PER_FRAME cycles to run (R113, R114). -/
def State.beginFrame (k : Word) (s : State) : State :=
  let s := { s with keys := k }
  match s.runState with
  | .halted _ => s
  | .awaitingKey r => s.awaitResolve r
  | .running => { s.timerStep with frameLeft := s.cfg.cyclesPerFrame }

end Sys2Proof.Machine
end

