-- ==== Sys2Proof/Machine/Load.lean ====
section
/-! DEFINITION. The load sequence, which is the block's only reset (70_reset_and_hazards.md R271 to R273). -/

namespace Sys2Proof.Machine

/-- The largest image that loads: 4096 − 0x200 bytes (20_memory.md R57). -/
def maxImage : Nat := 3584

/-- `load(bytes)` (R272); an oversized image raises LoadError and changes nothing else (R271, R273). fb, tone_on and the
keys sample are kept (decision D21); so are the parameters, the trace and the port buffers (assumption log 6). -/
def State.load (bytes : List Byte) (s : State) : State :=
  if maxImage < bytes.length then s.raiseFatal .loadError 0x200 0
  else
    { s with
      mem := Memory.image s.bg 0x200 bytes
      V := Vector.replicate 16 0
      I := 0
      pc := 0x200
      sp := 0
      stack := Vector.replicate 16 0
      DT := 0
      ST := 0
      runState := .running }

end Sys2Proof.Machine
end

