-- ==== Sys2Proof/Machine/Cycle.lean ====
section
/-! DEFINITION. One cycle, one frame and one transaction (40_fetch_execute.md R100 to R115), and the placing of an
instruction where the next cycle fetches it. -/

namespace Sys2Proof.Machine

/-! ### One cycle -/

/-- `MemRead(pc, 2)`, big-endian (00_scope.md R12; 20_memory.md R52). -/
def State.fetchWord (s : State) : Word := bigEndian (s.memRead s.pc.toNat) (s.memRead (s.pc.toNat + 1))

/-- Whether both bytes at pc exist: pc ≤ 0xFFE (R101). -/
def State.canFetch (s : State) : Bool := decide (s.pc.toNat ≤ 0xFFE)

/-- `step_cycle()` (R100): nothing unless RUNNING (R106); the fetch fault (R101); else the default advance (R102) and the
execution of the word (R103). -/
def stepCycle (s : State) : Result :=
  match s.runState with
  | .awaitingKey _ => .next s
  | .halted _ => .next s
  | .running =>
    if s.canFetch then exec (decode s.fetchWord) { s with pc := s.pc + 2 }
    else .next (s.raiseFatal .fetchOutOfRange s.pc 0)

/-! ### One frame, a cycle at a time -/

/-- What the cycle loop has left after a cycle: one less while RUNNING, nothing once the core waits or is halted (R114). -/
def State.endCycle (s : State) : State :=
  match s.runState with
  | .running => { s with frameLeft := s.frameLeft - 1 }
  | .awaitingKey _ => { s with frameLeft := 0 }
  | .halted _ => { s with frameLeft := 0 }

/-- Applies a function to the next state. -/
def mapNext (f : State → State) : Result → Result
  | .next s => .next (f s)
  | .fault r => .fault r
  | .refused r => .refused r

/-- One cycle of the frame in progress. -/
def frameCycle (s : State) : Result := mapNext State.endCycle (stepCycle s)

/-- Begins a transaction: `load` and `step_cycle()` are done by it, `frame_tick` leaves its cycles to the steps after. -/
def beginTransaction (t : Transaction) (s : State) : Result :=
  match t with
  | .load bytes => .next (s.load bytes)
  | .frameTick k => .next (s.beginFrame k)
  | .stepCycle => stepCycle s

/-- The next step of the machine: a cycle of the frame in progress; between transactions the oldest pending one; where
none is pending, a bare `step_cycle()` (R107; assumption log 8). -/
def advance (s : State) : Result :=
  match s.frameLeft with
  | _ + 1 => frameCycle s
  | 0 =>
    match s.pending with
    | t :: ts => beginTransaction t { s with pending := ts }
    | [] => stepCycle s

/-! ### One transaction as a whole, as the spec's pseudocode gives it -/

/-- `for c in 1 .. n: if run_state != RUNNING: break; step_cycle()` (R110, R114). -/
def runCycles : Nat → State → Result
  | 0, s => .next s
  | n + 1, s =>
    match s.runState with
    | .awaitingKey _ => .next s
    | .halted _ => .next s
    | .running =>
      match stepCycle s with
      | .next t => runCycles n t
      | .fault r => .fault r
      | .refused r => .refused r

/-- `frame_tick(k)`, all of it (R110). -/
def frameTick (k : Word) (s : State) : Result :=
  let s := { s with keys := k }
  match s.runState with
  | .halted _ => .next s
  | .awaitingKey r => .next (s.awaitResolve r)
  | .running => runCycles s.cfg.cyclesPerFrame s.timerStep

/-- A whole transaction of an input port (10_state.md R39). -/
def transact (t : Transaction) (s : State) : Result :=
  match t with
  | .load bytes => .next (s.load bytes)
  | .frameTick k => frameTick k s
  | .stepCycle => stepCycle s

/-! ### Placing an instruction -/

/-- The state in which the next step is a cycle that fetches at pc: RUNNING, pc where a word can be fetched, and a
`step_cycle()` first in line where another transaction would be. -/
def State.readyToFetch (s : State) : State :=
  { s with
    runState := .running
    pc := if s.canFetch then s.pc else 0x200
    pending :=
      match s.frameLeft, s.pending with
      | 0, t :: ts => .stepCycle :: t :: ts
      | _, ts => ts }

/-- Places a word at pc, big-endian (R52). -/
def State.placeWord (w : Word) (s : State) : State :=
  (s.memWrite s.pc.toNat (w.extractLsb' 8 8)).memWrite (s.pc.toNat + 1) (w.extractLsb' 0 8)

end Sys2Proof.Machine
end

