-- ==== Sys2Proof/Machine/Step.lean ====
section
/-! DEFINITION. The step of the machine, and the placing of an instruction where it fetches. -/

namespace Sys2Proof.Machine

/-- One step: one cycle, or the part of one transaction before its cycles (assumption log 8). -/
def step (s : State) : Host.Outcome State Fault Refusal := advance s

/-- The state whose next step fetches and runs the instruction with the given opcode-table bits (assumption log 9). -/
def State.withFetchWord (s : State) (nbits w : Nat) : State := s.readyToFetch.placeWord (tableWord nbits w)

end Sys2Proof.Machine
end

