-- ==== Sys2Proof/Safety.lean ====
section
/-! DEFINITION. The terms the claims use: what holds of every state a run reaches, what an instruction keeps, what a
fatal condition leaves, and the opcode map of 30_encoding.md R76 as rows. -/

namespace Sys2Proof.Machine

/-! ### The invariant -/

/-- The invariant: the parameters are those of a block that can be built (00_scope.md R8), memory and the plane are in
canonical form and hold nothing outside the block (20_memory.md R50; 10_state.md R35), pc is at most 0x1002 and every
stack entry at most 0x1000 (R25), and a frame is in progress only while the core runs (40_fetch_execute.md R114). The
bound 0 ≤ sp ≤ 16 (R28) is the type of sp. -/
structure State.Inv (s : State) : Prop where
  cfg : s.cfg.wf
  mem : Memory.wf s.bg s.mem
  plane : Plane.wf s.cfg.width s.cfg.height s.fb
  pc : s.pc.toNat ≤ 0x1002
  stack : ∀ k : Fin 16, s.stack[k].toNat ≤ 0x1000
  frame : s.frameLeft ≠ 0 → s.runState = .running

/-! ### What is kept -/

/-- The parts of the state. -/
inductive Part where
  | cfg | regs | index | pc | callStack | delay | sound | memory | runState | plane | tone | keys | trace
  /-- The transactions not yet begun. -/
  | pending
  /-- The cycles left of the frame in progress. -/
  | frameLeft
  /-- The `rnd` port and the count of draws. -/
  | random
  deriving DecidableEq, Repr

/-- A part is the same in two states; of memory, every byte reads the same. -/
def Part.Same (s t : State) : Part → Prop
  | .cfg => t.cfg = s.cfg
  | .regs => ∀ r, t.getV r = s.getV r
  | .index => t.I = s.I
  | .pc => t.pc = s.pc
  | .callStack => t.sp = s.sp ∧ ∀ k : Fin 16, t.stack[k] = s.stack[k]
  | .delay => t.DT = s.DT
  | .sound => t.ST = s.ST
  | .memory => ∀ a, t.memRead a = s.memRead a
  | .runState => t.runState = s.runState
  | .plane => t.fb = s.fb
  | .tone => t.toneOn = s.toneOn
  | .keys => t.keys = s.keys
  | .trace => t.trace = s.trace
  | .pending => t.pending = s.pending
  | .frameLeft => t.frameLeft = s.frameLeft
  | .random => t.rndIn = s.rndIn ∧ t.draws = s.draws

/-- From s to t nothing changed but, at most, the listed parts. -/
def OnlyChanges (ps : List Part) (s t : State) : Prop := ∀ p, p ∉ ps → Part.Same s t p

/-- Registers other than those listed are the same. -/
def KeepsRegsBut (rs : List RegIx) (s t : State) : Prop := ∀ r, r ∉ rs → t.getV r = s.getV r

/-- From s the core met a fatal condition with this record and made no other change (60_exceptions.md R231). -/
def HaltsWith (f : FaultRecord) (s t : State) : Prop :=
  OnlyChanges [.runState, .trace] s t ∧ t.runState = .halted f ∧ t.trace = s.trace ++ [.fault f]

/-- The core has met a fatal condition. -/
def State.isHalted (s : State) : Prop := ∃ f, s.runState = .halted f

/-! ### The opcode map as rows -/

/-- A row of R76: a word matches it if its masked bits are the value. -/
structure OpcodeRow where
  mask : Word
  value : Word
  build : Word → Instr

def OpcodeRow.hits (r : OpcodeRow) (w : Word) : Bool := w &&& r.mask == r.value

/-- The rows keyed by the primary key alone (30_encoding.md R73, R75, R76). -/
def oneLevelRows : List OpcodeRow :=
  [⟨0xF000, 0x1000, fun w => .jp (fieldNNN w)⟩,
   ⟨0xF000, 0x2000, fun w => .call (fieldNNN w)⟩,
   ⟨0xF000, 0x3000, fun w => .seByte (fieldX w) (fieldKK w)⟩,
   ⟨0xF000, 0x4000, fun w => .sneByte (fieldX w) (fieldKK w)⟩,
   ⟨0xF000, 0x5000, fun w => .seReg (fieldX w) (fieldY w) (fieldN w)⟩,
   ⟨0xF000, 0x6000, fun w => .ldByte (fieldX w) (fieldKK w)⟩,
   ⟨0xF000, 0x7000, fun w => .addByte (fieldX w) (fieldKK w)⟩,
   ⟨0xF000, 0x9000, fun w => .sneReg (fieldX w) (fieldY w) (fieldN w)⟩,
   ⟨0xF000, 0xA000, fun w => .ldI (fieldNNN w)⟩,
   ⟨0xF000, 0xB000, fun w => .jpV0 (fieldNNN w)⟩,
   ⟨0xF000, 0xC000, fun w => .rnd (fieldX w) (fieldKK w)⟩,
   ⟨0xF000, 0xD000, fun w => .drw (fieldX w) (fieldY w) (fieldN w)⟩]

/-- The rows of the group keyed by the low nibble. -/
def nibbleKeyedRows : List OpcodeRow :=
  [⟨0xF00F, 0x8000, fun w => .ldReg (fieldX w) (fieldY w)⟩,
   ⟨0xF00F, 0x8001, fun w => .orReg (fieldX w) (fieldY w)⟩,
   ⟨0xF00F, 0x8002, fun w => .andReg (fieldX w) (fieldY w)⟩,
   ⟨0xF00F, 0x8003, fun w => .xorReg (fieldX w) (fieldY w)⟩,
   ⟨0xF00F, 0x8004, fun w => .addReg (fieldX w) (fieldY w)⟩,
   ⟨0xF00F, 0x8005, fun w => .subReg (fieldX w) (fieldY w)⟩,
   ⟨0xF00F, 0x8006, fun w => .shr (fieldX w) (fieldY w)⟩,
   ⟨0xF00F, 0x8007, fun w => .subnReg (fieldX w) (fieldY w)⟩,
   ⟨0xF00F, 0x800E, fun w => .shl (fieldX w) (fieldY w)⟩]

/-- The rows of the groups keyed by the low byte. -/
def byteKeyedRows : List OpcodeRow :=
  [⟨0xF0FF, 0x00E0, fun w => .cls (fieldHi w)⟩,
   ⟨0xF0FF, 0x00EE, fun w => .ret (fieldHi w)⟩,
   ⟨0xF0FF, 0xE09E, fun w => .skp (fieldX w)⟩,
   ⟨0xF0FF, 0xE0A1, fun w => .sknp (fieldX w)⟩,
   ⟨0xF0FF, 0xF007, fun w => .ldVxDT (fieldX w)⟩,
   ⟨0xF0FF, 0xF00A, fun w => .ldVxK (fieldX w)⟩,
   ⟨0xF0FF, 0xF015, fun w => .ldDTVx (fieldX w)⟩,
   ⟨0xF0FF, 0xF018, fun w => .ldSTVx (fieldX w)⟩,
   ⟨0xF0FF, 0xF01E, fun w => .addI (fieldX w)⟩,
   ⟨0xF0FF, 0xF029, fun w => .ldF (fieldX w)⟩,
   ⟨0xF0FF, 0xF033, fun w => .ldB (fieldX w)⟩,
   ⟨0xF0FF, 0xF055, fun w => .ldMemVx (fieldX w)⟩,
   ⟨0xF0FF, 0xF065, fun w => .ldVxMem (fieldX w)⟩]

/-- The complete opcode map (R76). -/
def opcodeMap : List OpcodeRow := byteKeyedRows ++ oneLevelRows ++ nibbleKeyedRows

/-! ### Terms of the display statements -/

/-- The pixels DRW toggles, in the loop order of 44_display.md R195: rows top to bottom, bits most significant first, each
coordinate wrapped (R190). -/
def spritePixels (xs ys n : Nat) (s : State) : List Pixel :=
  (List.range n).flatMap fun row =>
    ((List.range 8).filter fun bit => (s.memRead (s.I.toNat + row)).getLsbD (7 - bit)).map fun bit =>
      ((xs + bit) % s.cfg.width, (ys + row) % s.cfg.height)

/-- Whether pixel p is lit after the toggles ps, by parity. -/
def litAfter (ps fb : List Pixel) (p : Pixel) : Prop := (p ∈ fb ↔ ps.count p % 2 = 0)

/-- Whether the k-th toggle of ps finds its pixel lit, so that it becomes unset. -/
def togglesOff (ps fb : List Pixel) (k : Nat) : Prop := ∃ p, ps[k]? = some p ∧ litAfter (ps.take k) fb p

/-- The sprite fits: no row of it lies beyond 0xFFF (R195). -/
def spriteFits (n : Nibble) (s : State) : Prop := n.toNat = 0 ∨ s.I.toNat + n.toNat - 1 ≤ 0xFFF

/-! ### Terms of the fatal statements -/

/-- Whether executing an instruction meets a fatal condition, and which (60_exceptions.md R230). -/
def fatalOf (s : State) : Instr → Option FaultCode
  | .ret _ => if s.sp.val = 0 then some .stackUnderflow else none
  | .call _ => if s.sp.val = 16 then some .stackOverflow else none
  | .drw _ _ n => if 0 < n.toNat ∧ 0xFFF < s.I.toNat + n.toNat - 1 then some .memoryOutOfRange else none
  | .ldB _ => if 0xFFF < s.I.toNat + 2 then some .memoryOutOfRange else none
  | .ldMemVx x | .ldVxMem x =>
    if s.cfg.regBlockMode = .copy ∧ 0xFFF < s.I.toNat + x.val then some .memoryOutOfRange else none
  | .cls _ | .jp _ | .seByte _ _ | .sneByte _ _ | .seReg _ _ _ | .ldByte _ _ | .addByte _ _ | .ldReg _ _ | .orReg _ _
  | .andReg _ _ | .xorReg _ _ | .addReg _ _ | .subReg _ _ | .shr _ _ | .subnReg _ _ | .shl _ _ | .sneReg _ _ _
  | .ldI _ | .jpV0 _ | .rnd _ _ | .skp _ | .sknp _ | .ldVxDT _ | .ldVxK _ | .ldDTVx _ | .ldSTVx _ | .addI _ | .ldF _
  | .unknown _ => none

/-! ### Terms of the frame statements: who may write what -/

/-- The general registers an instruction may write (10_state.md R22). -/
def mayWriteReg (i : Instr) (r : RegIx) : Prop :=
  match i with
  | .ldByte x _ | .addByte x _ | .ldReg x _ | .orReg x _ | .andReg x _ | .xorReg x _ | .rnd x _ | .ldVxDT x => r = x
  | .addReg x _ | .subReg x _ | .shr x _ | .subnReg x _ | .shl x _ => r = x ∨ r = VF
  | .drw _ _ _ => r = VF
  | .ldVxMem x => r ≤ x
  | .cls _ | .ret _ | .jp _ | .call _ | .seByte _ _ | .sneByte _ _ | .seReg _ _ _ | .sneReg _ _ _ | .ldI _ | .jpV0 _
  | .skp _ | .sknp _ | .ldVxK _ | .ldDTVx _ | .ldSTVx _ | .addI _ | .ldF _ | .ldB _ | .ldMemVx _ | .unknown _ => False

/-- The addresses an instruction may store to, by the effective address its meaning uses (43_index_memory.md R170). -/
def mayStoreTo (s : State) (i : Instr) (a : Nat) : Prop :=
  match i with
  | .ldB _ => s.ea 0 ≤ a ∧ a ≤ s.ea 2
  | .ldMemVx x => s.cfg.regBlockMode = .copy ∧ s.ea 0 ≤ a ∧ a ≤ s.ea x.val
  | .ldVxMem _ | .cls _ | .ret _ | .jp _ | .call _ | .seByte _ _ | .sneByte _ _ | .seReg _ _ _ | .sneReg _ _ _
  | .ldByte _ _ | .addByte _ _ | .ldReg _ _ | .orReg _ _ | .andReg _ _ | .xorReg _ _ | .addReg _ _ | .subReg _ _
  | .shr _ _ | .subnReg _ _ | .shl _ _ | .ldI _ | .jpV0 _ | .rnd _ _ | .drw _ _ _ | .skp _ | .sknp _ | .ldVxDT _
  | .ldVxK _ | .ldDTVx _ | .ldSTVx _ | .addI _ | .ldF _ | .unknown _ => False

/-- The parts other than registers and memory that an instruction may write, where it meets no fatal condition
(10_state.md R23, R26 to R30, R33, R35, R40; the rules of each instruction). -/
def mayWritePart : Instr → List Part
  | .cls _ => [.plane, .trace]
  | .drw _ _ _ => [.plane, .trace]
  | .ret _ | .call _ => [.callStack, .pc]
  | .jp _ | .jpV0 _ | .seByte _ _ | .sneByte _ _ | .seReg _ _ _ | .sneReg _ _ _ | .skp _ | .sknp _ => [.pc]
  | .ldI _ | .addI _ | .ldF _ => [.index]
  | .rnd _ _ => [.random]
  | .ldVxK _ => [.runState]
  | .ldDTVx _ => [.delay]
  | .ldSTVx _ => [.sound]
  | .unknown _ => [.trace]
  | .ldByte _ _ | .addByte _ _ | .ldReg _ _ | .orReg _ _ | .andReg _ _ | .xorReg _ _ | .addReg _ _ | .subReg _ _
  | .shr _ _ | .subnReg _ _ | .shl _ _ | .ldVxDT _ | .ldB _ | .ldMemVx _ | .ldVxMem _ => []

/-! ### Terms of the encoding statements -/

/-- The unrecognized class, as R77 lists it. -/
def unrecognizedClass (w : Nat) : Prop :=
  (w / 0x1000 = 0x0 ∧ w % 0x100 ≠ 0xE0 ∧ w % 0x100 ≠ 0xEE) ∨
  (w / 0x1000 = 0x8 ∧ w % 0x10 ∈ [0x8, 0x9, 0xA, 0xB, 0xC, 0xD, 0xF]) ∨
  (w / 0x1000 = 0xE ∧ w % 0x100 ≠ 0x9E ∧ w % 0x100 ≠ 0xA1) ∨
  (w / 0x1000 = 0xF ∧ w % 0x100 ∉ [0x07, 0x0A, 0x15, 0x18, 0x1E, 0x29, 0x33, 0x55, 0x65])

end Sys2Proof.Machine
end

