-- ==== Sys2Proof/Certificates/Slice0/Obligations.lean ====
section
/-! DEFINITION. The statements for the provers, in the order of OBLIGATIONS.json. A statement that needs a state's lists
to be in canonical form says so by the invariant of Safety.lean, which is a statement of its own. -/

open Sys2Proof Sys2Proof.Machine

/-! ### Encoding (30_encoding.md) -/

/-- Words written out from the patterns of R76, one or more of every family, decode to their instructions. -/
def Obligations.PatternWordsDecode : Prop :=
  decode 0x0AE0 = .cls 0xA ∧ decode 0x00EE = .ret 0 ∧ decode 0x1345 = .jp 0x345 ∧ decode 0x2210 = .call 0x210 ∧
  decode 0x3A42 = .seByte 0xA 0x42 ∧ decode 0x9127 = .sneReg 1 2 7 ∧ decode 0x6A2B = .ldByte 0xA 0x2B ∧
  decode 0x8124 = .addReg 1 2 ∧ decode 0x812E = .shl 1 2 ∧ decode 0xA300 = .ldI 0x300 ∧ decode 0xBFFF = .jpV0 0xFFF ∧
  decode 0xC01A = .rnd 0 0x1A ∧ decode 0xD125 = .drw 1 2 5 ∧ decode 0xE59E = .skp 5 ∧ decode 0xF20A = .ldVxK 2 ∧
  decode 0xF307 = .ldVxDT 3 ∧ decode 0xF115 = .ldDTVx 1 ∧ decode 0xF118 = .ldSTVx 1 ∧
  decode 0xF255 = .ldMemVx 2 ∧ decode 0x0123 = .unknown 0x0123

/-- R76, R77: no operand bit of any instruction is dropped or moved by its encoding. -/
def Obligations.DecodeInvertsEncode : Prop :=
  ∀ i : Instr, i.wf = true → decode (encode i) = i

/-- R79: every word decodes to a well-formed instruction. That its encoding is that word again, ignored bits included,
rests on the model's choice to keep those bits as fields (assumption log 4). -/
def Obligations.EncodeInvertsDecode : Prop :=
  ∀ w : Word, (decode w).wf = true ∧ encode (decode w) = w

/-- R76: a word that matches a row of the complete opcode map decodes to that row's instruction, its fields read from the
row's bits. -/
def Obligations.EveryOpcodeMapRowDecodes : Prop :=
  ∀ r ∈ opcodeMap, ∀ w : Word, w &&& r.mask = r.value → decode w = r.build w

/-- R79: a word matches at most one row, and is unrecognized exactly if it matches none. -/
def Obligations.EveryWordMatchesOneRowOrIsUnknown : Prop :=
  ∀ w : Word, (opcodeMap.filter (fun r => r.hits w)).length ≤ 1 ∧
    (opcodeMap.filter (fun r => r.hits w) = [] ↔ decode w = .unknown w)

/-- R77: exactly the listed words are unrecognized. -/
def Obligations.UnrecognizedWordsAreTheListedOnes : Prop :=
  ∀ w : Word, decode w = .unknown w ↔ unrecognizedClass w.toNat

/-! ### The cycle, faults and the halt (40_fetch_execute.md, 60_exceptions.md) -/

/-- R100, R102, R103: a RUNNING cycle whose word can be fetched executes the instruction of the two big-endian bytes at
pc, with pc already advanced by 2; in a frame the cycle loop then counts down or ends. That a step with nothing pending
is a bare cycle is the model's choice (assumption log 8). -/
def Obligations.StepRunsTheDecodedInstruction : Prop :=
  ∀ (s : State) (hi lo : Byte), s.runState = .running → s.pc.toNat ≤ 0xFFE →
    s.memRead s.pc.toNat = hi → s.memRead (s.pc.toNat + 1) = lo →
    (s.frameLeft = 0 → s.pending = [] →
      step s = exec (decode (hi ++ lo)) { s with pc := s.pc + 2 }) ∧
    (∀ ts, s.frameLeft = 0 → s.pending = .stepCycle :: ts →
      step s = exec (decode (hi ++ lo)) { s with pc := s.pc + 2, pending := ts }) ∧
    (∀ n, s.frameLeft = n + 1 →
      step s = mapNext State.endCycle (exec (decode (hi ++ lo)) { s with pc := s.pc + 2 }))

/-- R101 (decision D10): a fetch past 0xFFE halts the core, pc unchanged, with the record (FetchOutOfRange, pc, 0).
That a step with nothing pending is this bare cycle is the model's choice (assumption log 8). -/
def Obligations.FetchPastTheEndHalts : Prop :=
  ∀ s : State, s.runState = .running → 0xFFE < s.pc.toNat →
    ∃ t, stepCycle s = .next t ∧ HaltsWith ⟨.fetchOutOfRange, s.pc, 0⟩ s t ∧
      (s.frameLeft = 0 → s.pending = [] → step s = .next t)

/-- R106 (decision D32): a cycle while waiting for a key or halted does nothing. That a step with nothing pending is this
bare cycle is the model's choice (assumption log 8). -/
def Obligations.CycleIsIdleUnlessRunning : Prop :=
  ∀ s : State, s.runState ≠ .running →
    stepCycle s = .next s ∧ (s.frameLeft = 0 → s.pending = [] → step s = .next s)

/-- R104: an unrecognized word emits one diagnostic with its address and itself, and changes nothing else. The address is
pc - 2, the model's reading of ia (assumption log 7). -/
def Obligations.UnknownWordOnlyEmitsItsDiagnostic : Prop :=
  ∀ (w : Word) (s : State), ∃ t, exec (.unknown w) s = .next t ∧ OnlyChanges [.trace] s t ∧
    t.trace = s.trace ++ [.diag .unknownOpcode (s.pc - 2) w]

/-- R73, R78: no instruction and no step of the machine ends outside its states. -/
def Obligations.EveryInstructionAndStepGoesOn : Prop :=
  (∀ (i : Instr) (s : State), ∃ t, exec i s = .next t) ∧ ∀ s : State, ∃ t, step s = .next t

/-- R230: executing an instruction meets a fatal condition exactly where the table says, and then the record holds the
table's code, the instruction's address and its word; R105, R231, R232: nothing but the run state and the trace changed.
The record's address is pc - 2, the model's reading of
ia (assumption log 7). -/
def Obligations.FatalConditionsAreTheTablesAndPrecise : Prop :=
  ∀ (i : Instr) (s : State), ¬ s.isHalted → ∃ t, exec i s = .next t ∧
    (∀ c, fatalOf s i = some c → HaltsWith ⟨c, s.pc - 2, encode i⟩ s t) ∧
    (fatalOf s i = none → ¬ t.isHalted)

/-- R106, R111, R235: a halted core stays halted with the same record, and keeps everything, through every transaction
but a load; a frame's key sample is still taken (assumption log 10). -/
def Obligations.HaltedCoreKeepsEverythingUntilLoad : Prop :=
  ∀ (s : State) (f : FaultRecord), s.runState = .halted f → s.frameLeft = 0 →
    (∀ bytes ts, s.pending ≠ .load bytes :: ts) →
    ∃ t, step s = .next t ∧ t.runState = .halted f ∧ OnlyChanges [.keys, .pending] s t

/-! ### Frames, timers, the tone and the input wait -/

/-- R110, R113, R240, R241: a RUNNING frame samples the keys, counts both timers down to at least 0, decides the tone from
the counted-down sound timer, and has CYCLES_PER_FRAME cycles to run. -/
def Obligations.RunningFrameCountsTimersThenDecidesTone : Prop :=
  ∀ (s : State) (k : Word) (ts : List Transaction),
    s.runState = .running → s.frameLeft = 0 → s.pending = .frameTick k :: ts →
    ∃ t, step s = .next t ∧
      OnlyChanges [.delay, .sound, .tone, .keys, .trace, .pending, .frameLeft] s t ∧
      t.keys = k ∧ t.pending = ts ∧ t.frameLeft = s.cfg.cyclesPerFrame ∧
      t.DT.toNat = s.DT.toNat - 1 ∧ t.ST.toNat = s.ST.toNat - 1 ∧
      t.toneOn = decide (1 < s.ST.toNat) ∧
      t.trace = s.trace ++ [if 1 < s.ST.toNat then .tonePlay s.cfg.toneFreq else .toneStop]

/-- R240 to R242: over n timer steps in a row each timer falls by n, to at least 0, and after the n-th the tone plays
exactly if the sound timer stood above n: s - 1 frames of tone for a sound timer of s. -/
def Obligations.SoundDecaysOneFrameAtATime : Prop :=
  ∀ (s : State) (n : Nat), ∃ t, t = State.timerStep^[n] s ∧
    OnlyChanges [.delay, .sound, .tone, .trace] s t ∧
    t.DT.toNat = s.DT.toNat - n ∧ t.ST.toNat = s.ST.toNat - n ∧ (0 < n → t.toneOn = decide (n < s.ST.toNat)) ∧
    t.trace = s.trace ++ (List.range n).map (fun k =>
      if k + 1 < s.ST.toNat then .tonePlay s.cfg.toneFreq else .toneStop)

/-- R112, R243 to R245 (decisions D12, D15): a frame of a waiting core writes the lowest pressed key's code to the
waiting register and resumes, or does nothing more than R110's and R38's key sample where no key is pressed; no
timer, tone or cycle either way. That the sample is taken in a waiting frame is the model's reading (assumption log 10). -/
def Obligations.WaitingFrameResolvesToLowestKey : Prop :=
  ∀ (s : State) (r : RegIx) (k : Word) (ts : List Transaction),
    s.runState = .awaitingKey r → s.frameLeft = 0 → s.pending = .frameTick k :: ts →
    ∃ t, step s = .next t ∧ t.keys = k ∧ t.pending = ts ∧
      (k = 0 → OnlyChanges [.keys, .pending] s t) ∧
      (k ≠ 0 → OnlyChanges [.keys, .pending, .regs, .runState] s t ∧ KeepsRegsBut [r] s t ∧ t.runState = .running ∧
        ∃ n : Nat, n < 16 ∧ k.getLsbD n = true ∧ (∀ m < n, k.getLsbD m = false) ∧ (t.getV r).toNat = n)

/-- R114 (decision D14): after a cycle of a frame the loop has one cycle less to run while the core runs, and none once
it waits or is halted. -/
def Obligations.FrameLoopEndsWhenTheCoreStopsRunning : Prop :=
  ∀ (s : State) (n : Nat), s.runState = .running → s.frameLeft = n + 1 → ∃ t, step s = .next t ∧
    (t.runState = .running → t.frameLeft = n) ∧ (t.runState ≠ .running → t.frameLeft = 0)

/-- R110, R113 to R115: the machine's steps carry out each transaction exactly as the spec's own pseudocode does it as a
whole, in at most CYCLES_PER_FRAME + 1 steps. How a transaction is cut into steps is the model's choice (assumption
log 8). -/
def Obligations.StepsCarryOutWholeTransactions : Prop :=
  ∀ (s : State) (x : Transaction) (ts : List Transaction), s.frameLeft = 0 → s.pending = x :: ts →
    ∃ (n : Nat) (t : State), 1 ≤ n ∧ n ≤ s.cfg.cyclesPerFrame + 1 ∧
      Host.Core.run Sys2Proof.core n s = .next t ∧ t.frameLeft = 0 ∧
      transact x { s with pending := ts } = .next t

/-! ### Load and power-on (70_reset_and_hazards.md) -/

/-- R272 (decisions D21, D33): a load that fits leaves every part as the load sequence gives it and keeps the plane, the
tone and the key sample. That it keeps the trace and the port buffers is the model's choice (assumption log 6). -/
def Obligations.LoadReinitializesTheMachine : Prop :=
  ∀ (s : State) (bytes : List Byte) (ts : List Transaction),
    bytes.length ≤ 3584 → s.frameLeft = 0 → s.pending = .load bytes :: ts →
    ∃ t, step s = .next t ∧
      OnlyChanges [.regs, .index, .pc, .callStack, .delay, .sound, .memory, .runState, .pending] s t ∧
      (∀ r, t.getV r = 0) ∧ t.I = 0 ∧ t.pc = 0x200 ∧ t.sp.val = 0 ∧ (∀ k : Fin 16, t.stack[k] = 0) ∧
      t.DT = 0 ∧ t.ST = 0 ∧ t.runState = .running ∧ t.pending = ts ∧
      (∀ a : Fin 80, t.memRead a = s.cfg.font[a]) ∧
      (∀ a, 80 ≤ a → a < 0x200 → t.memRead a = 0) ∧
      (∀ k (h : k < bytes.length), t.memRead (0x200 + k) = bytes[k]) ∧
      (∀ a, 0x200 + bytes.length ≤ a → t.memRead a = 0)

/-- R271, R273 (decision D24): a larger image halts the core with the record (LoadError, 0x200, 0) and changes nothing
else. -/
def Obligations.OversizedLoadHaltsAndChangesNothing : Prop :=
  ∀ (s : State) (bytes : List Byte) (ts : List Transaction),
    3584 < bytes.length → s.frameLeft = 0 → s.pending = .load bytes :: ts →
    ∃ t, step s = .next t ∧ HaltsWith ⟨.loadError, 0x200, 0⟩ { s with pending := ts } t

/-- R44, R270, R8: the state after power-on of a block built with any parameters; reset is that of the defaults. Its empty
trace and that no frame is in progress are the model's choices (assumption log 6), and so is that the parameters stand in
the state (assumption log 1). -/
def Obligations.PowerOnState : Prop :=
  (∀ c : Config, ∃ s, s = State.powerOn c ∧ s.cfg = c ∧
    (∀ r, s.getV r = 0) ∧ s.I = 0 ∧ s.pc = 0x200 ∧ s.sp.val = 0 ∧ (∀ k : Fin 16, s.stack[k] = 0) ∧
    s.DT = 0 ∧ s.ST = 0 ∧ s.runState = .running ∧ s.fb = [] ∧ s.toneOn = false ∧ s.keys = 0 ∧
    (∀ a : Fin 80, s.memRead a = c.font[a]) ∧ (∀ a, 80 ≤ a → s.memRead a = 0) ∧ s.trace = [] ∧ s.frameLeft = 0) ∧
  State.reset = State.powerOn Config.default

/-- R8: W, H, TONE_FREQ and FRAME_RATE are positive, and the defaults but FONT are those of its table, whatever the two
OPEN parameters are (that those are free values at reset is the model's choice, assumption log 2). -/
def Obligations.DefaultParametersAreLegal : Prop :=
  Config.default.wf ∧ Config.default.width = 64 ∧ Config.default.height = 32 ∧ Config.default.frameRate = 60 ∧
  Config.default.jumpMask = .mask12 ∧ Config.default.regBlockMode = .copy ∧
  Config.default.cyclesPerFrame = Config.cyclesPerFrameOpen ∧ Config.default.toneFreq = Config.toneFreqOpen

/-! ### Control transfer (41_control_flow.md) -/

/-- R121: RET pops the top entry into pc and does not clear it; with an empty stack it is StackUnderflow.
The record's address is pc - 2, the model's reading of
ia (assumption log 7). -/
def Obligations.ReturnPopsIntoPc : Prop :=
  ∀ (ign : Nibble) (s : State), ∃ t, exec (.ret ign) s = .next t ∧
    (∀ k : Fin 16, s.sp.val = k.val + 1 → OnlyChanges [.callStack, .pc] s t ∧ t.sp.val = k.val ∧ t.pc = s.stack[k] ∧
      ∀ j : Fin 16, t.stack[j] = s.stack[j]) ∧
    (s.sp.val = 0 → HaltsWith ⟨.stackUnderflow, s.pc - 2, encode (.ret ign)⟩ s t)

/-- R123: CALL pushes the advanced pc and jumps; with 16 entries in use it is StackOverflow.
The record's address is pc - 2, the model's reading of
ia (assumption log 7). -/
def Obligations.CallPushesTheAdvancedPc : Prop :=
  ∀ (nnn : Addr12) (s : State), ∃ t, exec (.call nnn) s = .next t ∧
    (∀ k : Fin 16, s.sp.val = k.val → OnlyChanges [.callStack, .pc] s t ∧ t.sp.val = k.val + 1 ∧
      t.stack[k] = s.pc ∧ (∀ j : Fin 16, j ≠ k → t.stack[j] = s.stack[j]) ∧ t.pc.toNat = nnn.toNat) ∧
    (s.sp.val = 16 → HaltsWith ⟨.stackOverflow, s.pc - 2, encode (.call nnn)⟩ s t)

/-- R121, R123, and 90_conflicts.md C5: a return right after a call resumes where pc stood while the call executed, with
the stack pointer as before, at every nesting below the stack's capacity. -/
def Obligations.ReturnAfterCallResumes : Prop :=
  ∀ (nnn : Addr12) (ign : Nibble) (s : State), s.sp.val < 16 →
    ∃ t u, exec (.call nnn) s = .next t ∧ exec (.ret ign) { t with pc := t.pc + 2 } = .next u ∧
      u.pc = s.pc ∧ u.sp = s.sp ∧ ∀ k : Fin 16, k.val < s.sp.val → u.stack[k] = s.stack[k]

/-- R122: JP loads pc with nnn zero-extended and changes nothing else. -/
def Obligations.JumpLoadsPc : Prop :=
  ∀ (nnn : Addr12) (s : State), ∃ t, exec (.jp nnn) s = .next t ∧ OnlyChanges [.pc] s t ∧ t.pc.toNat = nnn.toNat

/-- R128: JP V0 sums nnn and V0 before the mask, for both values of JUMP_V0_MASK (decision D6). -/
def Obligations.JumpV0MasksTheSum : Prop :=
  ∀ (nnn : Addr12) (s : State), ∃ t, exec (.jpV0 nnn) s = .next t ∧ OnlyChanges [.pc] s t ∧
    (s.cfg.jumpMask = .mask12 → t.pc.toNat = (nnn.toNat + (s.getV 0).toNat) % 0x1000) ∧
    (s.cfg.jumpMask = .mask8 → t.pc.toNat = (nnn.toNat + (s.getV 0).toNat) % 0x100)

/-- R124, R125: SE and SNE with a byte add 2 more to pc where the comparison holds, and change nothing else. -/
def Obligations.ByteSkipsCompare : Prop :=
  ∀ (x : RegIx) (kk : Byte) (s : State),
    (∃ t, exec (.seByte x kk) s = .next t ∧ OnlyChanges [.pc] s t ∧
      t.pc = if (s.getV x).toNat = kk.toNat then s.pc + 2 else s.pc) ∧
    (∃ t, exec (.sneByte x kk) s = .next t ∧ OnlyChanges [.pc] s t ∧
      t.pc = if (s.getV x).toNat = kk.toNat then s.pc else s.pc + 2)

/-- R126, R127, R75: the same with two registers, whatever the ignored low nibble. -/
def Obligations.RegisterSkipsCompare : Prop :=
  ∀ (x y : RegIx) (ign : Nibble) (s : State),
    (∃ t, exec (.seReg x y ign) s = .next t ∧ OnlyChanges [.pc] s t ∧
      t.pc = if (s.getV x).toNat = (s.getV y).toNat then s.pc + 2 else s.pc) ∧
    (∃ t, exec (.sneReg x y ign) s = .next t ∧ OnlyChanges [.pc] s t ∧
      t.pc = if (s.getV x).toNat = (s.getV y).toNat then s.pc else s.pc + 2)

/-! ### Register loads, arithmetic, logic, shifts, random (42_alu.md) -/

/-- R142, R144: the loads write Vx and no other register, VF included unless it is Vx. -/
def Obligations.RegisterLoadsCopy : Prop :=
  ∀ (x y : RegIx) (kk : Byte) (s : State),
    (∃ t, exec (.ldByte x kk) s = .next t ∧ OnlyChanges [.regs] s t ∧ KeepsRegsBut [x] s t ∧ t.getV x = kk) ∧
    (∃ t, exec (.ldReg x y) s = .next t ∧ OnlyChanges [.regs] s t ∧ KeepsRegsBut [x] s t ∧ t.getV x = s.getV y)

/-- R145, R146, R147: OR, AND and XOR, bit by bit, with no flag. -/
def Obligations.LogicIsBitwiseWithoutFlag : Prop :=
  ∀ (x y : RegIx) (s : State),
    (∃ t, exec (.orReg x y) s = .next t ∧ OnlyChanges [.regs] s t ∧ KeepsRegsBut [x] s t ∧
      ∀ k < 8, (t.getV x).getLsbD k = ((s.getV x).getLsbD k || (s.getV y).getLsbD k)) ∧
    (∃ t, exec (.andReg x y) s = .next t ∧ OnlyChanges [.regs] s t ∧ KeepsRegsBut [x] s t ∧
      ∀ k < 8, (t.getV x).getLsbD k = ((s.getV x).getLsbD k && (s.getV y).getLsbD k)) ∧
    (∃ t, exec (.xorReg x y) s = .next t ∧ OnlyChanges [.regs] s t ∧ KeepsRegsBut [x] s t ∧
      ∀ k < 8, (t.getV x).getLsbD k = ((s.getV x).getLsbD k ^^ (s.getV y).getLsbD k))

/-- R143: the sum mod 256 and never a flag; with Vx = VF, VF holds the sum. -/
def Obligations.AddByteWrapsWithoutFlag : Prop :=
  ∀ (x : RegIx) (kk : Byte) (s : State), ∃ t, exec (.addByte x kk) s = .next t ∧ OnlyChanges [.regs] s t ∧
    KeepsRegsBut [x] s t ∧ (t.getV x).toNat = ((s.getV x).toNat + kk.toNat) % 256

/-- R148: the sum mod 256, then the carry in VF; with Vx = VF the carry is what stays. -/
def Obligations.AddRegisterSetsCarry : Prop :=
  ∀ (x y : RegIx) (s : State), ∃ t, exec (.addReg x y) s = .next t ∧ OnlyChanges [.regs] s t ∧
    KeepsRegsBut [x, VF] s t ∧
    (x ≠ VF → (t.getV x).toNat = ((s.getV x).toNat + (s.getV y).toNat) % 256) ∧
    t.getV VF = if (s.getV x).toNat + (s.getV y).toNat > 255 then 1 else 0

/-- R149, R151: the difference mod 256, then 1 in VF exactly if the minuend is strictly greater; with Vx = VF the flag is
what stays. -/
def Obligations.SubtractionsSetStrictNoBorrow : Prop :=
  ∀ (x y : RegIx) (s : State),
    (∃ t, exec (.subReg x y) s = .next t ∧ OnlyChanges [.regs] s t ∧ KeepsRegsBut [x, VF] s t ∧
      (x ≠ VF → ((t.getV x).toNat : Int) = (((s.getV x).toNat : Int) - (s.getV y).toNat) % 256) ∧
      t.getV VF = if (s.getV x).toNat > (s.getV y).toNat then 1 else 0) ∧
    (∃ t, exec (.subnReg x y) s = .next t ∧ OnlyChanges [.regs] s t ∧ KeepsRegsBut [x, VF] s t ∧
      (x ≠ VF → ((t.getV x).toNat : Int) = (((s.getV y).toNat : Int) - (s.getV x).toNat) % 256) ∧
      t.getV VF = if (s.getV y).toNat > (s.getV x).toNat then 1 else 0)

/-- R150, R152: Vx shifted by one in place whatever y is, then the bit shifted out in VF; with Vx = VF the bit is what
stays. -/
def Obligations.ShiftsSetTheBitShiftedOut : Prop :=
  ∀ (x ignY : RegIx) (s : State),
    (∃ t, exec (.shr x ignY) s = .next t ∧ OnlyChanges [.regs] s t ∧ KeepsRegsBut [x, VF] s t ∧
      (x ≠ VF → (t.getV x).toNat = (s.getV x).toNat / 2) ∧ (t.getV VF).toNat = (s.getV x).toNat % 2) ∧
    (∃ t, exec (.shl x ignY) s = .next t ∧ OnlyChanges [.regs] s t ∧ KeepsRegsBut [x, VF] s t ∧
      (x ≠ VF → (t.getV x).toNat = (s.getV x).toNat * 2 % 256) ∧ (t.getV VF).toNat = (s.getV x).toNat / 128)

/-- R153, R9: RND takes exactly one draw, any byte, and masks it with kk. The byte waiting on the `rnd` port is the draw;
where none waits the draw is a free value (assumption log 3), and the statement holds for whatever it is. -/
def Obligations.RandomTakesOneDraw : Prop :=
  ∀ (x : RegIx) (kk : Byte) (s : State), ∃ (t : State) (r : Byte), exec (.rnd x kk) s = .next t ∧
    OnlyChanges [.regs, .random] s t ∧ KeepsRegsBut [x] s t ∧ t.draws = s.draws + 1 ∧ t.getV x = r &&& kk ∧
    (∀ b bs, s.rndIn = b :: bs → r = b ∧ t.rndIn = bs) ∧ (s.rndIn = [] → t.rndIn = [])

/-! ### Index register and memory transfers (43_index_memory.md, 20_memory.md) -/

/-- R171, R173: LD I loads nnn zero-extended; LD F loads five times Vx, not masked. -/
def Obligations.IndexLoads : Prop :=
  ∀ (nnn : Addr12) (x : RegIx) (s : State),
    (∃ t, exec (.ldI nnn) s = .next t ∧ OnlyChanges [.index] s t ∧ t.I.toNat = nnn.toNat) ∧
    (∃ t, exec (.ldF x) s = .next t ∧ OnlyChanges [.index] s t ∧ t.I.toNat = (s.getV x).toNat * 5)

/-- R172 (decision D9): ADD I adds mod 65536, is not checked against the memory's size, and sets no flag. -/
def Obligations.AddIndexWrapsAt16Bits : Prop :=
  ∀ (x : RegIx) (s : State), ∃ t, exec (.addI x) s = .next t ∧ OnlyChanges [.index] s t ∧
    t.I.toNat = (s.I.toNat + (s.getV x).toNat) % 65536

/-- R174: the three decimal digits at I, I + 1 and I + 2, every other byte as before; past 0xFFF it is MemoryOutOfRange
and nothing is written. The record's address is pc - 2, the model's reading of
ia (assumption log 7). -/
def Obligations.BcdStoresThreeDigits : Prop :=
  ∀ (x : RegIx) (s : State), Memory.wf s.bg s.mem → ∃ t, exec (.ldB x) s = .next t ∧
    (s.I.toNat + 2 ≤ 0xFFF → OnlyChanges [.memory] s t ∧
      (t.memRead (s.ea 0)).toNat = (s.getV x).toNat / 100 ∧
      (t.memRead (s.ea 1)).toNat = (s.getV x).toNat / 10 % 10 ∧
      (t.memRead (s.ea 2)).toNat = (s.getV x).toNat % 10 ∧
      ∀ a, (a < s.ea 0 ∨ s.ea 2 < a) → t.memRead a = s.memRead a) ∧
    (0xFFF < s.I.toNat + 2 → HaltsWith ⟨.memoryOutOfRange, s.pc - 2, encode (.ldB x)⟩ s t)

/-- R175 (decision D7): in Copy mode V0 to Vx go to I, …, I + x and every other byte is as before, or it is
MemoryOutOfRange past 0xFFF; in NoOp mode nothing happens. The record's address is pc - 2, the model's reading of
ia (assumption log 7). -/
def Obligations.RegisterBlockStores : Prop :=
  ∀ (x : RegIx) (s : State), Memory.wf s.bg s.mem → ∃ t, exec (.ldMemVx x) s = .next t ∧
    (s.cfg.regBlockMode = .noOp → t = s) ∧
    (s.cfg.regBlockMode = .copy → s.I.toNat + x.val ≤ 0xFFF → OnlyChanges [.memory] s t ∧
      (∀ r : RegIx, r ≤ x → t.memRead (s.ea r.val) = s.getV r) ∧
      ∀ a, (a < s.ea 0 ∨ s.ea x.val < a) → t.memRead a = s.memRead a) ∧
    (s.cfg.regBlockMode = .copy → 0xFFF < s.I.toNat + x.val →
      HaltsWith ⟨.memoryOutOfRange, s.pc - 2, encode (.ldMemVx x)⟩ s t)

/-- R176 (decision D7): in Copy mode V0 to Vx come from I, …, I + x and every other register is as before, or it is
MemoryOutOfRange past 0xFFF; in NoOp mode nothing happens. The record's address is pc - 2, the model's reading of
ia (assumption log 7). -/
def Obligations.RegisterBlockLoads : Prop :=
  ∀ (x : RegIx) (s : State), ∃ t, exec (.ldVxMem x) s = .next t ∧
    (s.cfg.regBlockMode = .noOp → t = s) ∧
    (s.cfg.regBlockMode = .copy → s.I.toNat + x.val ≤ 0xFFF → OnlyChanges [.regs] s t ∧
      (∀ r : RegIx, r ≤ x → t.getV r = s.memRead (s.ea r.val)) ∧
      ∀ r : RegIx, x < r → t.getV r = s.getV r) ∧
    (s.cfg.regBlockMode = .copy → 0xFFF < s.I.toNat + x.val →
      HaltsWith ⟨.memoryOutOfRange, s.pc - 2, encode (.ldVxMem x)⟩ s t)

/-- R50, R63: a read returns the most recent write to its address, and a write leaves every other address alone. -/
def Obligations.ReadReturnsTheMostRecentWrite : Prop :=
  ∀ (s : State) (a b : Nat) (v : Byte), Memory.wf s.bg s.mem →
    (s.memWrite a v).memRead b = if b = a then v else s.memRead b

/-- R66, R278 (decision D29): the very next fetch after a store to the bytes at pc reads what was stored. -/
def Obligations.NextFetchSeesTheStore : Prop :=
  ∀ (x : RegIx) (s : State), Memory.wf s.bg s.mem → s.I = s.pc → s.pc.toNat + 2 ≤ 0xFFF →
    ∃ t, exec (.ldB x) s = .next t ∧ t.pc = s.pc ∧
      t.fetchWord.toNat = (s.getV x).toNat / 100 * 256 + (s.getV x).toNat / 10 % 10

/-! ### Display (44_display.md) -/

/-- R191, R194 (decision D20): CLS turns every pixel off, emits one DispClear and presents nothing. -/
def Obligations.ClearScreenBlanksThePlane : Prop :=
  ∀ (ign : Nibble) (s : State), ∃ t, exec (.cls ign) s = .next t ∧ OnlyChanges [.plane, .trace] s t ∧
    (∀ p, p ∉ t.fb) ∧ t.trace = s.trace ++ [.dispClear]

/-- R190, R193: toggle flips exactly the pixel at the coordinates' mathematical moduli (decision D36, assumption log 14)
of the plane held in the block, emits it (decision D1, assumption log 29), and answers whether it became unset. -/
def Obligations.ToggleFlipsTheWrappedPixel : Prop :=
  ∀ (s : State) (px py : Int), s.Inv →
    ∃ xx yy : Nat, (xx : Int) = px % s.cfg.width ∧ (yy : Int) = py % s.cfg.height ∧
      xx < s.cfg.width ∧ yy < s.cfg.height ∧
      OnlyChanges [.plane, .trace] s (s.toggle px py).1 ∧
      (∀ p, p ∈ (s.toggle px py).1.fb ↔ if p = (xx, yy) then p ∉ s.fb else p ∈ s.fb) ∧
      (s.toggle px py).1.trace = s.trace ++ [.dispToggle xx yy] ∧
      ((s.toggle px py).2 = true ↔ (xx, yy) ∈ s.fb)

/-- R195, R198 (decision D8): DRW toggles the sprite's set pixels in loop order, each wrapped, then presents once; each
pixel ends flipped as often as the sprite hit it. Past 0xFFF it is MemoryOutOfRange and nothing is toggled. The record's
address is pc - 2, the model's reading of ia (assumption log 7). -/
def Obligations.DrawTogglesTheSprite : Prop :=
  ∀ (x y : RegIx) (n : Nibble) (s : State), s.Inv → ∃ t, exec (.drw x y n) s = .next t ∧
    (spriteFits n s → OnlyChanges [.regs, .plane, .trace] s t ∧ KeepsRegsBut [VF] s t ∧
      (∀ p, p ∈ t.fb ↔ litAfter (spritePixels (s.getV x).toNat (s.getV y).toNat n.toNat s) s.fb p) ∧
      t.trace = s.trace ++
        (spritePixels (s.getV x).toNat (s.getV y).toNat n.toNat s).map (fun p => Event.dispToggle p.1 p.2) ++
        [.dispPresent]) ∧
    (¬ spriteFits n s → HaltsWith ⟨.memoryOutOfRange, s.pc - 2, encode (.drw x y n)⟩ s t)

/-- R196: VF after DRW is 1 if some toggle found its pixel set, and 0 if none did; the coordinates are those read before VF
is written. -/
def Obligations.DrawSetsTheCollisionFlag : Prop :=
  ∀ (x y : RegIx) (n : Nibble) (s : State), s.Inv → spriteFits n s → ∃ t, exec (.drw x y n) s = .next t ∧
    ((∃ k, togglesOff (spritePixels (s.getV x).toNat (s.getV y).toNat n.toNat s) s.fb k) → t.getV VF = 1) ∧
    ((¬ ∃ k, togglesOff (spritePixels (s.getV x).toNat (s.getV y).toNat n.toNat s) s.fb k) → t.getV VF = 0)

/-- R197: the same draw twice in succession, Vx and Vy the same at both, restores the plane; where sprite bits land on
distinct pixels the second draw sets VF to 1 exactly if the first turned some pixel on. -/
def Obligations.DrawingTwiceRestoresThePlane : Prop :=
  ∀ (x y : RegIx) (n : Nibble) (s t : State), s.Inv → spriteFits n s → exec (.drw x y n) s = .next t →
    t.getV x = s.getV x → t.getV y = s.getV y →
    ∃ u, exec (.drw x y n) t = .next u ∧ u.fb = s.fb ∧
      (8 ≤ s.cfg.width → 15 ≤ s.cfg.height → (u.getV VF = 1 ↔ ∃ p, p ∈ t.fb ∧ p ∉ s.fb))

/-! ### Keys and timers (45_timers_input.md) -/

/-- R210, R211 (decision D13): SKP skips exactly if Vx names a key of the frame's sample that is pressed, SKNP exactly if
not; a value above 15 names no key. -/
def Obligations.KeySkipsTestTheSample : Prop :=
  ∀ (x : RegIx) (s : State),
    (∃ t, exec (.skp x) s = .next t ∧ OnlyChanges [.pc] s t ∧
      t.pc = if (s.getV x).toNat < 16 ∧ s.keys.getLsbD (s.getV x).toNat = true then s.pc + 2 else s.pc) ∧
    (∃ t, exec (.sknp x) s = .next t ∧ OnlyChanges [.pc] s t ∧
      t.pc = if (s.getV x).toNat < 16 ∧ s.keys.getLsbD (s.getV x).toNat = true then s.pc else s.pc + 2)

/-- R212, R214, R215: the timer reads and writes copy, and neither touches the tone. -/
def Obligations.TimerAccessCopies : Prop :=
  ∀ (x : RegIx) (s : State),
    (∃ t, exec (.ldVxDT x) s = .next t ∧ OnlyChanges [.regs] s t ∧ KeepsRegsBut [x] s t ∧ t.getV x = s.DT) ∧
    (∃ t, exec (.ldDTVx x) s = .next t ∧ OnlyChanges [.delay] s t ∧ t.DT = s.getV x) ∧
    (∃ t, exec (.ldSTVx x) s = .next t ∧ OnlyChanges [.sound] s t ∧ t.ST = s.getV x)

/-- R213: the await-key opcode sets the latch for Vx and writes nothing else. -/
def Obligations.AwaitKeySetsTheLatch : Prop :=
  ∀ (x : RegIx) (s : State), ∃ t, exec (.ldVxK x) s = .next t ∧ OnlyChanges [.runState] s t ∧
    t.runState = .awaitingKey x

/-! ### Whole-machine rules -/

/-- R22: executing an instruction changes no general register but those R22 gives it. -/
def Obligations.OnlyNamedWritersChangeRegisters : Prop :=
  ∀ (i : Instr) (s t : State), exec i s = .next t → ∀ r, ¬ mayWriteReg i r → t.getV r = s.getV r

/-- R60, R58: executing an instruction changes no byte of memory but those it stores to. -/
def Obligations.OnlyStoresChangeMemory : Prop :=
  ∀ (i : Instr) (s t : State), Memory.wf s.bg s.mem → exec i s = .next t →
    ∀ a, ¬ mayStoreTo s i a → t.memRead a = s.memRead a

/-- R23, R26 to R30, R33, R35, R36, R38: executing an instruction that meets no fatal condition changes, of everything but
registers and memory, only the parts its rule gives it. -/
def Obligations.OnlyNamedWritersChangeOtherParts : Prop :=
  ∀ (i : Instr) (s t : State), fatalOf s i = none → exec i s = .next t →
    ∀ p, p ∉ mayWritePart i → p ≠ .regs → p ≠ .memory → Part.Same s t p

/-- R41, R40, R13: no step changes a parameter or takes an event back from the output trace. That a load keeps the trace
is the model's choice (assumption log 6). -/
def Obligations.ParametersStayAndTheTraceOnlyGrows : Prop :=
  ∀ s t : State, step s = .next t → t.cfg = s.cfg ∧ s.trace <+: t.trace

/-- R30, R36, 90_conflicts.md C4: what an instruction does depends neither on the tone's level nor, except that LD ST
replaces it, on the sound timer. -/
def Obligations.NoInstructionReadsToneOrSoundTimer : Prop :=
  ∀ (i : Instr) (s : State) (b : Bool) (v : Byte),
    exec i { s with toneOn := b } = mapNext (fun t => { t with toneOn := b }) (exec i s) ∧
    ((∀ x, i ≠ .ldSTVx x) → exec i { s with ST := v } = mapNext (fun t => { t with ST := v }) (exec i s)) ∧
    (∀ x, i = .ldSTVx x → exec i { s with ST := v } = exec i s)

/-- The state after power-on of every block that can be built (R8) meets the invariant, and so does reset. Of the frame the
invariant says only that one in progress needs a RUNNING core; that none is in progress is in PowerOnState. -/
def Obligations.PowerOnMeetsTheInvariant : Prop :=
  (∀ c : Config, c.wf → (State.powerOn c).Inv) ∧ State.reset.Inv

/-- R25, R28, R35, R50, R114: from every state that meets the invariant, a step leads to one that meets it. -/
def Obligations.EveryStepKeepsTheInvariant : Prop :=
  ∀ s t : State, s.Inv → step s = .next t → t.Inv
end

