-- ==== Sys2Proof/Laws/Memory.lean ====
section
/-! SUPPORT. The laws of memory: a read after a write, and that every operation keeps the canonical form. -/

namespace Sys2Proof.Machine

/-- The addresses of a list of cells rise strictly. -/
abbrev Memory.Rising (m : List Host.Cell) : Prop := m.Pairwise (fun c d => c.1 < d.1)

theorem Memory.read_of_not_listed {bg : Nat → Byte} {m : List Host.Cell} {a : Nat} (h : ∀ c ∈ m, c.1 ≠ a) :
    Memory.read bg m a = bg a := by
  induction m with
  | nil => rfl
  | cons c cs ih =>
    have hc := h c (by simp)
    simp only [Memory.read, hc, if_false]
    exact ih fun d hd => h d (by simp [hd])

theorem Memory.mem_put {a : Nat} {o : Option Byte} {m : List Host.Cell} {c : Host.Cell}
    (h : c ∈ Memory.put a o m) : c ∈ m ∨ (c.1 = a ∧ o = some c.2) := by
  induction m with
  | nil => cases o <;> simp_all [Memory.put]
  | cons d ds ih =>
    simp only [Memory.put] at h
    split at h
    · cases o <;> simp_all [or_comm, or_assoc]
      rcases h with h | h | h <;> simp_all
    · split at h
      · cases o <;> simp_all
        rcases h with h | h <;> simp_all
      · rcases List.mem_cons.mp h with h | h
        · simp [h]
        · rcases ih h with h | h <;> simp [h]

theorem Memory.rising_put {a : Nat} {o : Option Byte} {m : List Host.Cell} (h : Memory.Rising m) :
    Memory.Rising (Memory.put a o m) := by
  induction m with
  | nil => cases o <;> simp [Memory.put, Memory.Rising]
  | cons d ds ih =>
    have hd := List.pairwise_cons.mp h
    simp only [Memory.put]
    split
    · rename_i hlt
      cases o with
      | none => exact h
      | some v =>
        refine List.pairwise_cons.mpr ⟨fun c hc => ?_, h⟩
        rcases List.mem_cons.mp hc with rfl | hc
        · exact hlt
        · exact lt_trans hlt (hd.1 c hc)
    · split
      · rename_i heq
        cases o with
        | none => exact hd.2
        | some v => exact List.pairwise_cons.mpr ⟨fun c hc => by simpa [heq] using hd.1 c hc, hd.2⟩
      · rename_i hnlt hne
        refine List.pairwise_cons.mpr ⟨fun c hc => ?_, ih hd.2⟩
        rcases Memory.mem_put hc with hc | ⟨hc, -⟩
        · exact hd.1 c hc
        · omega

theorem Memory.read_put {bg : Nat → Byte} {a b : Nat} {o : Option Byte} {m : List Host.Cell} (h : Memory.Rising m) :
    Memory.read bg (Memory.put a o m) b = if b = a then o.getD (bg a) else Memory.read bg m b := by
  induction m with
  | nil =>
    cases o with
    | none => simp only [Memory.put, Option.elim, Memory.read, Option.getD]; split <;> simp_all
    | some v => simp only [Memory.put, Option.elim, Memory.read, Option.getD, eq_comm (a := a)]
  | cons d ds ih =>
    have hd := List.pairwise_cons.mp h
    have above : ∀ {c}, a < c → (∀ e ∈ ds, c < e.1) → ∀ e ∈ ds, e.1 ≠ a := fun hac hc e he => by
      have := hc e he; omega
    simp only [Memory.put]
    split
    · rename_i hlt
      cases o with
      | none =>
        by_cases hba : b = a
        · subst hba
          have hne : d.1 ≠ b := by omega
          simp [Memory.read, hne, Memory.read_of_not_listed (above hlt hd.1)]
        · simp [hba]
      | some v => simp [Memory.read, eq_comm (a := a)]
    · split
      · rename_i heq
        cases o with
        | none =>
          by_cases hba : b = a
          · subst hba
            have : ∀ e ∈ ds, e.1 ≠ b := fun e he => by have := hd.1 e he; omega
            simp [Memory.read_of_not_listed this]
          · have : d.1 ≠ b := by omega
            simp [hba, Memory.read, this]
        | some v =>
          by_cases hba : b = a
          · simp [Memory.read, hba]
          · have hdb : d.1 ≠ b := by omega
            simp [Memory.read, hba, Ne.symm hba, hdb]
      · rename_i hnlt hne
        simp only [Memory.read, ih hd.2]
        by_cases hdb : d.1 = b
        · have : b ≠ a := by omega
          simp [hdb, this]
        · simp [hdb]

/-- A read after a write (20_memory.md R63). -/
theorem Memory.read_write {bg : Nat → Byte} {a b : Nat} {v : Byte} {m : List Host.Cell} (h : Memory.Rising m) :
    Memory.read bg (Memory.write bg a v m) b = if b = a then v else Memory.read bg m b := by
  simp only [Memory.write, Memory.read_put h]
  by_cases hv : v = bg a <;> simp [hv]

theorem Memory.rising_write {bg : Nat → Byte} {a : Nat} {v : Byte} {m : List Host.Cell} (h : Memory.Rising m) :
    Memory.Rising (Memory.write bg a v m) := Memory.rising_put h

/-- A write inside the 4096 bytes keeps the canonical form. -/
theorem Memory.wf_write {bg : Nat → Byte} {a : Nat} {v : Byte} {m : List Host.Cell} (h : Memory.wf bg m)
    (ha : a < 4096) : Memory.wf bg (Memory.write bg a v m) := by
  refine ⟨Memory.rising_put h.1, fun c hc => ?_⟩
  rcases Memory.mem_put hc with hc | ⟨hc, ho⟩
  · exact h.2 c hc
  · by_cases hv : v = bg a
    · simp [hv] at ho
    · rw [if_neg hv] at ho
      exact ⟨hc ▸ ha, by rw [hc, ← Option.some.inj ho]; exact hv⟩

theorem Memory.wf_nil (bg : Nat → Byte) : Memory.wf bg [] := ⟨.nil, by simp⟩

theorem Memory.mem_image {bg : Nat → Byte} {bytes : List Byte} {base : Nat} {c : Host.Cell}
    (h : c ∈ Memory.image bg base bytes) : base ≤ c.1 ∧ c.1 < base + bytes.length ∧ c.2 ≠ bg c.1 := by
  induction bytes generalizing base with
  | nil => simp [Memory.image] at h
  | cons b bs ih =>
    simp only [Memory.image] at h
    split at h
    · have := ih h
      simp only [List.length_cons]
      exact ⟨by omega, by omega, this.2.2⟩
    · rename_i hb
      rcases List.mem_cons.mp h with rfl | h
      · exact ⟨le_rfl, by simp, hb⟩
      · have := ih h
        simp only [List.length_cons]
        exact ⟨by omega, by omega, this.2.2⟩

theorem Memory.rising_image {bg : Nat → Byte} {bytes : List Byte} {base : Nat} :
    Memory.Rising (Memory.image bg base bytes) := by
  induction bytes generalizing base with
  | nil => simp [Memory.image, Memory.Rising]
  | cons b bs ih =>
    simp only [Memory.image]
    split
    · exact ih
    · exact List.pairwise_cons.mpr ⟨fun c hc => by have := Memory.mem_image hc; simp only; omega, ih⟩

/-- An image that ends inside the 4096 bytes is memory in canonical form (70_reset_and_hazards.md R272). -/
theorem Memory.wf_image {bg : Nat → Byte} {bytes : List Byte} {base : Nat} (h : base + bytes.length ≤ 4096) :
    Memory.wf bg (Memory.image bg base bytes) :=
  ⟨Memory.rising_image, fun c hc => by have := Memory.mem_image hc; exact ⟨by omega, this.2.2⟩⟩

/-- What a memory made of an image reads as. -/
theorem Memory.read_image {bg : Nat → Byte} {bytes : List Byte} {base a : Nat} :
    Memory.read bg (Memory.image bg base bytes) a = if base ≤ a then bytes.getD (a - base) (bg a) else bg a := by
  induction bytes generalizing base with
  | nil => simp [Memory.image, Memory.read]
  | cons b bs ih =>
    have tail : base ≠ a → (if base + 1 ≤ a then bs.getD (a - (base + 1)) (bg a) else bg a) =
        if base ≤ a then (b :: bs).getD (a - base) (bg a) else bg a := fun hne => by
      by_cases hle : base ≤ a
      · obtain ⟨k, rfl⟩ : ∃ k, a = base + 1 + k := ⟨a - base - 1, by omega⟩
        rw [if_pos (by omega), if_pos hle, show base + 1 + k - base = k + 1 by omega, Nat.add_sub_cancel_left]
        rfl
      · rw [if_neg (by omega), if_neg hle]
    simp only [Memory.image]
    split
    · rename_i hb
      rw [ih]
      by_cases hne : base = a
      · subst hne
        rw [if_neg (by omega), if_pos le_rfl, Nat.sub_self]
        exact hb.symm
      · exact tail hne
    · simp only [Memory.read, ih]
      by_cases hne : base = a
      · subst hne; simp
      · rw [if_neg hne]; exact tail hne

end Sys2Proof.Machine
end

