-- ==== Sys2Proof/Laws/Plane.lean ====
section
/-! SUPPORT. The laws of the display plane: what a flip does to each pixel, and that it keeps the canonical form. -/

namespace Sys2Proof.Machine

theorem Pixel.before_trans {p q r : Pixel} (h : Pixel.before p q) (k : Pixel.before q r) : Pixel.before p r := by
  simp only [Pixel.before] at *; omega

theorem Pixel.before_ne {p q : Pixel} (h : Pixel.before p q) : p ≠ q := by
  rintro rfl; simp only [Pixel.before] at h; omega

theorem Pixel.before_total {p q : Pixel} (hne : p ≠ q) (h : ¬ Pixel.before p q) : Pixel.before q p := by
  obtain ⟨a, b⟩ := p
  obtain ⟨c, d⟩ := q
  simp only [Pixel.before, ne_eq, Prod.mk.injEq] at *
  omega

theorem Plane.mem_flip_sub {p q : Pixel} {fb : List Pixel} (h : q ∈ Plane.flip p fb) : q = p ∨ q ∈ fb := by
  induction fb with
  | nil => simpa [Plane.flip] using h
  | cons r rs ih =>
    simp only [Plane.flip] at h
    split at h
    · simp [h]
    · split at h
      · simpa using h
      · rcases List.mem_cons.mp h with h | h
        · simp [h]
        · rcases ih h with h | h <;> simp [h]

/-- A flip changes exactly its own pixel (44_display.md R190). -/
theorem Plane.mem_flip {p q : Pixel} {fb : List Pixel} (h : fb.Pairwise Pixel.before) :
    q ∈ Plane.flip p fb ↔ if q = p then p ∉ fb else q ∈ fb := by
  induction fb with
  | nil => simp [Plane.flip]
  | cons r rs ih =>
    have hr := List.pairwise_cons.mp h
    have notin : ∀ {x}, Pixel.before x r → x ∉ rs := fun hx hmem =>
      Pixel.before_ne (Pixel.before_trans hx (hr.1 _ hmem)) rfl
    simp only [Plane.flip]
    split
    · rename_i hpr
      subst hpr
      have : p ∉ rs := fun hmem => Pixel.before_ne (hr.1 _ hmem) rfl
      by_cases hqp : q = p <;> simp [hqp, this]
    · rename_i hne
      split
      · rename_i hb
        by_cases hqp : q = p <;> simp [hqp, hne, notin hb]
      · rename_i hb
        by_cases hqr : q = r
        · subst hqr
          simp [Ne.symm hne]
        · by_cases hqp : q = p
          · subst hqp; simp [ih hr.2, hqr]
          · simp [ih hr.2, hqr, hqp]

theorem Plane.rising_flip {p : Pixel} {fb : List Pixel} (h : fb.Pairwise Pixel.before) :
    (Plane.flip p fb).Pairwise Pixel.before := by
  induction fb with
  | nil => simp [Plane.flip]
  | cons r rs ih =>
    have hr := List.pairwise_cons.mp h
    simp only [Plane.flip]
    split
    · exact hr.2
    · rename_i hne
      split
      · rename_i hb
        refine List.pairwise_cons.mpr ⟨fun q hq => ?_, h⟩
        rcases List.mem_cons.mp hq with rfl | hq
        · exact hb
        · exact Pixel.before_trans hb (hr.1 q hq)
      · rename_i hb
        refine List.pairwise_cons.mpr ⟨fun q hq => ?_, ih hr.2⟩
        rcases Plane.mem_flip_sub hq with rfl | hq
        · exact Pixel.before_total hne hb
        · exact hr.1 q hq

/-- A flip of a pixel of the plane keeps the canonical form. -/
theorem Plane.wf_flip {w h : Nat} {p : Pixel} {fb : List Pixel} (hw : Plane.wf w h fb) (hp : p.1 < w ∧ p.2 < h) :
    Plane.wf w h (Plane.flip p fb) :=
  ⟨Plane.rising_flip hw.1, fun q hq => by
    rcases Plane.mem_flip_sub hq with rfl | hq
    · exact hp
    · exact hw.2 q hq⟩

/-- Two planes in canonical form that light the same pixels are equal. -/
theorem Plane.ext {fb fc : List Pixel} (hb : fb.Pairwise Pixel.before) (hc : fc.Pairwise Pixel.before)
    (h : ∀ p, p ∈ fb ↔ p ∈ fc) : fb = fc := by
  have nodup : ∀ {l : List Pixel}, l.Pairwise Pixel.before → l.Nodup := fun hl => hl.imp Pixel.before_ne
  refine List.Perm.eq_of_pairwise (fun p q _ _ hpq hqp => ?_) hb hc
    ((List.perm_ext_iff_of_nodup (nodup hb) (nodup hc)).mpr h)
  exact absurd rfl (Pixel.before_ne (Pixel.before_trans hpq hqp))

/-- A wrapped pixel lies inside the plane (R193). -/
theorem Plane.wrap_lt {w h : Nat} (hw : 0 < w) (hh : 0 < h) (px py : Int) :
    (Plane.wrap w h px py).1 < w ∧ (Plane.wrap w h px py).2 < h := by
  have h1 := Int.emod_lt_of_pos px (Int.natCast_pos.mpr hw)
  have h2 := Int.emod_lt_of_pos py (Int.natCast_pos.mpr hh)
  simp only [Plane.wrap]; omega

/-- For coordinates that are naturals, as the core's always are (R193), wrapping is the remainder of naturals. -/
@[simp] theorem Plane.wrap_natCast (w h a b : Nat) : Plane.wrap w h (a : Int) (b : Int) = (a % w, b % h) := by
  simp only [Plane.wrap, Prod.mk.injEq]; omega

@[simp] theorem Plane.lit_iff (fb : List Pixel) (p : Pixel) : Plane.lit fb p = true ↔ p ∈ fb := by
  simp [Plane.lit]

end Sys2Proof.Machine
end

