-- ==== Sys2Proof/Laws/State.lean ====
section
/-! SUPPORT. One lemma per field per update of the state, and per register read of an update: what later proofs simplify
with instead of unfolding an operation. -/

namespace Sys2Proof.Machine


/-! ### emit -/

@[simp] theorem State.emit_cfg (s : State) (e : Event) : (s.emit e).cfg = s.cfg := rfl
@[simp] theorem State.emit_V (s : State) (e : Event) : (s.emit e).V = s.V := rfl
@[simp] theorem State.emit_I (s : State) (e : Event) : (s.emit e).I = s.I := rfl
@[simp] theorem State.emit_pc (s : State) (e : Event) : (s.emit e).pc = s.pc := rfl
@[simp] theorem State.emit_sp (s : State) (e : Event) : (s.emit e).sp = s.sp := rfl
@[simp] theorem State.emit_stack (s : State) (e : Event) : (s.emit e).stack = s.stack := rfl
@[simp] theorem State.emit_DT (s : State) (e : Event) : (s.emit e).DT = s.DT := rfl
@[simp] theorem State.emit_ST (s : State) (e : Event) : (s.emit e).ST = s.ST := rfl
@[simp] theorem State.emit_mem (s : State) (e : Event) : (s.emit e).mem = s.mem := rfl
@[simp] theorem State.emit_runState (s : State) (e : Event) : (s.emit e).runState = s.runState := rfl
@[simp] theorem State.emit_fb (s : State) (e : Event) : (s.emit e).fb = s.fb := rfl
@[simp] theorem State.emit_toneOn (s : State) (e : Event) : (s.emit e).toneOn = s.toneOn := rfl
@[simp] theorem State.emit_keys (s : State) (e : Event) : (s.emit e).keys = s.keys := rfl
@[simp] theorem State.emit_trace (s : State) (e : Event) : (s.emit e).trace = s.trace ++ [e] := rfl
@[simp] theorem State.emit_pending (s : State) (e : Event) : (s.emit e).pending = s.pending := rfl
@[simp] theorem State.emit_frameLeft (s : State) (e : Event) : (s.emit e).frameLeft = s.frameLeft := rfl
@[simp] theorem State.emit_rndIn (s : State) (e : Event) : (s.emit e).rndIn = s.rndIn := rfl
@[simp] theorem State.emit_draws (s : State) (e : Event) : (s.emit e).draws = s.draws := rfl

/-! ### raiseFatal -/

@[simp] theorem State.raiseFatal_cfg (s : State) (c : FaultCode) (a w : Word) : (s.raiseFatal c a w).cfg = s.cfg := rfl
@[simp] theorem State.raiseFatal_V (s : State) (c : FaultCode) (a w : Word) : (s.raiseFatal c a w).V = s.V := rfl
@[simp] theorem State.raiseFatal_I (s : State) (c : FaultCode) (a w : Word) : (s.raiseFatal c a w).I = s.I := rfl
@[simp] theorem State.raiseFatal_pc (s : State) (c : FaultCode) (a w : Word) : (s.raiseFatal c a w).pc = s.pc := rfl
@[simp] theorem State.raiseFatal_sp (s : State) (c : FaultCode) (a w : Word) : (s.raiseFatal c a w).sp = s.sp := rfl
@[simp] theorem State.raiseFatal_stack (s : State) (c : FaultCode) (a w : Word) : (s.raiseFatal c a w).stack = s.stack := rfl
@[simp] theorem State.raiseFatal_DT (s : State) (c : FaultCode) (a w : Word) : (s.raiseFatal c a w).DT = s.DT := rfl
@[simp] theorem State.raiseFatal_ST (s : State) (c : FaultCode) (a w : Word) : (s.raiseFatal c a w).ST = s.ST := rfl
@[simp] theorem State.raiseFatal_mem (s : State) (c : FaultCode) (a w : Word) : (s.raiseFatal c a w).mem = s.mem := rfl
@[simp] theorem State.raiseFatal_runState (s : State) (c : FaultCode) (a w : Word) : (s.raiseFatal c a w).runState = .halted ⟨c, a, w⟩ := rfl
@[simp] theorem State.raiseFatal_fb (s : State) (c : FaultCode) (a w : Word) : (s.raiseFatal c a w).fb = s.fb := rfl
@[simp] theorem State.raiseFatal_toneOn (s : State) (c : FaultCode) (a w : Word) : (s.raiseFatal c a w).toneOn = s.toneOn := rfl
@[simp] theorem State.raiseFatal_keys (s : State) (c : FaultCode) (a w : Word) : (s.raiseFatal c a w).keys = s.keys := rfl
@[simp] theorem State.raiseFatal_trace (s : State) (c : FaultCode) (a w : Word) : (s.raiseFatal c a w).trace = s.trace ++ [.fault ⟨c, a, w⟩] := rfl
@[simp] theorem State.raiseFatal_pending (s : State) (c : FaultCode) (a w : Word) : (s.raiseFatal c a w).pending = s.pending := rfl
@[simp] theorem State.raiseFatal_frameLeft (s : State) (c : FaultCode) (a w : Word) : (s.raiseFatal c a w).frameLeft = s.frameLeft := rfl
@[simp] theorem State.raiseFatal_rndIn (s : State) (c : FaultCode) (a w : Word) : (s.raiseFatal c a w).rndIn = s.rndIn := rfl
@[simp] theorem State.raiseFatal_draws (s : State) (c : FaultCode) (a w : Word) : (s.raiseFatal c a w).draws = s.draws := rfl

/-! ### fatalAt -/

@[simp] theorem State.fatalAt_cfg (s : State) (c : FaultCode) (w : Word) : (s.fatalAt c w).cfg = s.cfg := rfl
@[simp] theorem State.fatalAt_V (s : State) (c : FaultCode) (w : Word) : (s.fatalAt c w).V = s.V := rfl
@[simp] theorem State.fatalAt_I (s : State) (c : FaultCode) (w : Word) : (s.fatalAt c w).I = s.I := rfl
@[simp] theorem State.fatalAt_pc (s : State) (c : FaultCode) (w : Word) : (s.fatalAt c w).pc = s.pc := rfl
@[simp] theorem State.fatalAt_sp (s : State) (c : FaultCode) (w : Word) : (s.fatalAt c w).sp = s.sp := rfl
@[simp] theorem State.fatalAt_stack (s : State) (c : FaultCode) (w : Word) : (s.fatalAt c w).stack = s.stack := rfl
@[simp] theorem State.fatalAt_DT (s : State) (c : FaultCode) (w : Word) : (s.fatalAt c w).DT = s.DT := rfl
@[simp] theorem State.fatalAt_ST (s : State) (c : FaultCode) (w : Word) : (s.fatalAt c w).ST = s.ST := rfl
@[simp] theorem State.fatalAt_mem (s : State) (c : FaultCode) (w : Word) : (s.fatalAt c w).mem = s.mem := rfl
@[simp] theorem State.fatalAt_runState (s : State) (c : FaultCode) (w : Word) : (s.fatalAt c w).runState = .halted ⟨c, s.pc - 2, w⟩ := rfl
@[simp] theorem State.fatalAt_fb (s : State) (c : FaultCode) (w : Word) : (s.fatalAt c w).fb = s.fb := rfl
@[simp] theorem State.fatalAt_toneOn (s : State) (c : FaultCode) (w : Word) : (s.fatalAt c w).toneOn = s.toneOn := rfl
@[simp] theorem State.fatalAt_keys (s : State) (c : FaultCode) (w : Word) : (s.fatalAt c w).keys = s.keys := rfl
@[simp] theorem State.fatalAt_trace (s : State) (c : FaultCode) (w : Word) : (s.fatalAt c w).trace = s.trace ++ [.fault ⟨c, s.pc - 2, w⟩] := rfl
@[simp] theorem State.fatalAt_pending (s : State) (c : FaultCode) (w : Word) : (s.fatalAt c w).pending = s.pending := rfl
@[simp] theorem State.fatalAt_frameLeft (s : State) (c : FaultCode) (w : Word) : (s.fatalAt c w).frameLeft = s.frameLeft := rfl
@[simp] theorem State.fatalAt_rndIn (s : State) (c : FaultCode) (w : Word) : (s.fatalAt c w).rndIn = s.rndIn := rfl
@[simp] theorem State.fatalAt_draws (s : State) (c : FaultCode) (w : Word) : (s.fatalAt c w).draws = s.draws := rfl

/-! ### setV -/

@[simp] theorem State.setV_cfg (s : State) (x : RegIx) (v : Byte) : (s.setV x v).cfg = s.cfg := rfl
@[simp] theorem State.setV_V (s : State) (x : RegIx) (v : Byte) : (s.setV x v).V = s.V.set x v := rfl
@[simp] theorem State.setV_I (s : State) (x : RegIx) (v : Byte) : (s.setV x v).I = s.I := rfl
@[simp] theorem State.setV_pc (s : State) (x : RegIx) (v : Byte) : (s.setV x v).pc = s.pc := rfl
@[simp] theorem State.setV_sp (s : State) (x : RegIx) (v : Byte) : (s.setV x v).sp = s.sp := rfl
@[simp] theorem State.setV_stack (s : State) (x : RegIx) (v : Byte) : (s.setV x v).stack = s.stack := rfl
@[simp] theorem State.setV_DT (s : State) (x : RegIx) (v : Byte) : (s.setV x v).DT = s.DT := rfl
@[simp] theorem State.setV_ST (s : State) (x : RegIx) (v : Byte) : (s.setV x v).ST = s.ST := rfl
@[simp] theorem State.setV_mem (s : State) (x : RegIx) (v : Byte) : (s.setV x v).mem = s.mem := rfl
@[simp] theorem State.setV_runState (s : State) (x : RegIx) (v : Byte) : (s.setV x v).runState = s.runState := rfl
@[simp] theorem State.setV_fb (s : State) (x : RegIx) (v : Byte) : (s.setV x v).fb = s.fb := rfl
@[simp] theorem State.setV_toneOn (s : State) (x : RegIx) (v : Byte) : (s.setV x v).toneOn = s.toneOn := rfl
@[simp] theorem State.setV_keys (s : State) (x : RegIx) (v : Byte) : (s.setV x v).keys = s.keys := rfl
@[simp] theorem State.setV_trace (s : State) (x : RegIx) (v : Byte) : (s.setV x v).trace = s.trace := rfl
@[simp] theorem State.setV_pending (s : State) (x : RegIx) (v : Byte) : (s.setV x v).pending = s.pending := rfl
@[simp] theorem State.setV_frameLeft (s : State) (x : RegIx) (v : Byte) : (s.setV x v).frameLeft = s.frameLeft := rfl
@[simp] theorem State.setV_rndIn (s : State) (x : RegIx) (v : Byte) : (s.setV x v).rndIn = s.rndIn := rfl
@[simp] theorem State.setV_draws (s : State) (x : RegIx) (v : Byte) : (s.setV x v).draws = s.draws := rfl

/-! ### setResultThenFlag -/

@[simp] theorem State.setResultThenFlag_cfg (s : State) (x : RegIx) (v f : Byte) : (s.setResultThenFlag x v f).cfg = s.cfg := rfl
@[simp] theorem State.setResultThenFlag_V (s : State) (x : RegIx) (v f : Byte) : (s.setResultThenFlag x v f).V = (s.V.set x v).set VF f := rfl
@[simp] theorem State.setResultThenFlag_I (s : State) (x : RegIx) (v f : Byte) : (s.setResultThenFlag x v f).I = s.I := rfl
@[simp] theorem State.setResultThenFlag_pc (s : State) (x : RegIx) (v f : Byte) : (s.setResultThenFlag x v f).pc = s.pc := rfl
@[simp] theorem State.setResultThenFlag_sp (s : State) (x : RegIx) (v f : Byte) : (s.setResultThenFlag x v f).sp = s.sp := rfl
@[simp] theorem State.setResultThenFlag_stack (s : State) (x : RegIx) (v f : Byte) : (s.setResultThenFlag x v f).stack = s.stack := rfl
@[simp] theorem State.setResultThenFlag_DT (s : State) (x : RegIx) (v f : Byte) : (s.setResultThenFlag x v f).DT = s.DT := rfl
@[simp] theorem State.setResultThenFlag_ST (s : State) (x : RegIx) (v f : Byte) : (s.setResultThenFlag x v f).ST = s.ST := rfl
@[simp] theorem State.setResultThenFlag_mem (s : State) (x : RegIx) (v f : Byte) : (s.setResultThenFlag x v f).mem = s.mem := rfl
@[simp] theorem State.setResultThenFlag_runState (s : State) (x : RegIx) (v f : Byte) : (s.setResultThenFlag x v f).runState = s.runState := rfl
@[simp] theorem State.setResultThenFlag_fb (s : State) (x : RegIx) (v f : Byte) : (s.setResultThenFlag x v f).fb = s.fb := rfl
@[simp] theorem State.setResultThenFlag_toneOn (s : State) (x : RegIx) (v f : Byte) : (s.setResultThenFlag x v f).toneOn = s.toneOn := rfl
@[simp] theorem State.setResultThenFlag_keys (s : State) (x : RegIx) (v f : Byte) : (s.setResultThenFlag x v f).keys = s.keys := rfl
@[simp] theorem State.setResultThenFlag_trace (s : State) (x : RegIx) (v f : Byte) : (s.setResultThenFlag x v f).trace = s.trace := rfl
@[simp] theorem State.setResultThenFlag_pending (s : State) (x : RegIx) (v f : Byte) : (s.setResultThenFlag x v f).pending = s.pending := rfl
@[simp] theorem State.setResultThenFlag_frameLeft (s : State) (x : RegIx) (v f : Byte) : (s.setResultThenFlag x v f).frameLeft = s.frameLeft := rfl
@[simp] theorem State.setResultThenFlag_rndIn (s : State) (x : RegIx) (v f : Byte) : (s.setResultThenFlag x v f).rndIn = s.rndIn := rfl
@[simp] theorem State.setResultThenFlag_draws (s : State) (x : RegIx) (v f : Byte) : (s.setResultThenFlag x v f).draws = s.draws := rfl

/-! ### setPc -/

@[simp] theorem State.setPc_cfg (s : State) (a : Word) : (s.setPc a).cfg = s.cfg := rfl
@[simp] theorem State.setPc_V (s : State) (a : Word) : (s.setPc a).V = s.V := rfl
@[simp] theorem State.setPc_I (s : State) (a : Word) : (s.setPc a).I = s.I := rfl
@[simp] theorem State.setPc_pc (s : State) (a : Word) : (s.setPc a).pc = a := rfl
@[simp] theorem State.setPc_sp (s : State) (a : Word) : (s.setPc a).sp = s.sp := rfl
@[simp] theorem State.setPc_stack (s : State) (a : Word) : (s.setPc a).stack = s.stack := rfl
@[simp] theorem State.setPc_DT (s : State) (a : Word) : (s.setPc a).DT = s.DT := rfl
@[simp] theorem State.setPc_ST (s : State) (a : Word) : (s.setPc a).ST = s.ST := rfl
@[simp] theorem State.setPc_mem (s : State) (a : Word) : (s.setPc a).mem = s.mem := rfl
@[simp] theorem State.setPc_runState (s : State) (a : Word) : (s.setPc a).runState = s.runState := rfl
@[simp] theorem State.setPc_fb (s : State) (a : Word) : (s.setPc a).fb = s.fb := rfl
@[simp] theorem State.setPc_toneOn (s : State) (a : Word) : (s.setPc a).toneOn = s.toneOn := rfl
@[simp] theorem State.setPc_keys (s : State) (a : Word) : (s.setPc a).keys = s.keys := rfl
@[simp] theorem State.setPc_trace (s : State) (a : Word) : (s.setPc a).trace = s.trace := rfl
@[simp] theorem State.setPc_pending (s : State) (a : Word) : (s.setPc a).pending = s.pending := rfl
@[simp] theorem State.setPc_frameLeft (s : State) (a : Word) : (s.setPc a).frameLeft = s.frameLeft := rfl
@[simp] theorem State.setPc_rndIn (s : State) (a : Word) : (s.setPc a).rndIn = s.rndIn := rfl
@[simp] theorem State.setPc_draws (s : State) (a : Word) : (s.setPc a).draws = s.draws := rfl

/-! ### skip -/

@[simp] theorem State.skip_cfg (s : State) : s.skip.cfg = s.cfg := rfl
@[simp] theorem State.skip_V (s : State) : s.skip.V = s.V := rfl
@[simp] theorem State.skip_I (s : State) : s.skip.I = s.I := rfl
@[simp] theorem State.skip_pc (s : State) : s.skip.pc = s.pc + 2 := rfl
@[simp] theorem State.skip_sp (s : State) : s.skip.sp = s.sp := rfl
@[simp] theorem State.skip_stack (s : State) : s.skip.stack = s.stack := rfl
@[simp] theorem State.skip_DT (s : State) : s.skip.DT = s.DT := rfl
@[simp] theorem State.skip_ST (s : State) : s.skip.ST = s.ST := rfl
@[simp] theorem State.skip_mem (s : State) : s.skip.mem = s.mem := rfl
@[simp] theorem State.skip_runState (s : State) : s.skip.runState = s.runState := rfl
@[simp] theorem State.skip_fb (s : State) : s.skip.fb = s.fb := rfl
@[simp] theorem State.skip_toneOn (s : State) : s.skip.toneOn = s.toneOn := rfl
@[simp] theorem State.skip_keys (s : State) : s.skip.keys = s.keys := rfl
@[simp] theorem State.skip_trace (s : State) : s.skip.trace = s.trace := rfl
@[simp] theorem State.skip_pending (s : State) : s.skip.pending = s.pending := rfl
@[simp] theorem State.skip_frameLeft (s : State) : s.skip.frameLeft = s.frameLeft := rfl
@[simp] theorem State.skip_rndIn (s : State) : s.skip.rndIn = s.rndIn := rfl
@[simp] theorem State.skip_draws (s : State) : s.skip.draws = s.draws := rfl

/-! ### memWrite -/

@[simp] theorem State.memWrite_cfg (s : State) (a : Nat) (v : Byte) : (s.memWrite a v).cfg = s.cfg := rfl
@[simp] theorem State.memWrite_V (s : State) (a : Nat) (v : Byte) : (s.memWrite a v).V = s.V := rfl
@[simp] theorem State.memWrite_I (s : State) (a : Nat) (v : Byte) : (s.memWrite a v).I = s.I := rfl
@[simp] theorem State.memWrite_pc (s : State) (a : Nat) (v : Byte) : (s.memWrite a v).pc = s.pc := rfl
@[simp] theorem State.memWrite_sp (s : State) (a : Nat) (v : Byte) : (s.memWrite a v).sp = s.sp := rfl
@[simp] theorem State.memWrite_stack (s : State) (a : Nat) (v : Byte) : (s.memWrite a v).stack = s.stack := rfl
@[simp] theorem State.memWrite_DT (s : State) (a : Nat) (v : Byte) : (s.memWrite a v).DT = s.DT := rfl
@[simp] theorem State.memWrite_ST (s : State) (a : Nat) (v : Byte) : (s.memWrite a v).ST = s.ST := rfl
@[simp] theorem State.memWrite_mem (s : State) (a : Nat) (v : Byte) : (s.memWrite a v).mem = Memory.write s.bg a v s.mem := rfl
@[simp] theorem State.memWrite_runState (s : State) (a : Nat) (v : Byte) : (s.memWrite a v).runState = s.runState := rfl
@[simp] theorem State.memWrite_fb (s : State) (a : Nat) (v : Byte) : (s.memWrite a v).fb = s.fb := rfl
@[simp] theorem State.memWrite_toneOn (s : State) (a : Nat) (v : Byte) : (s.memWrite a v).toneOn = s.toneOn := rfl
@[simp] theorem State.memWrite_keys (s : State) (a : Nat) (v : Byte) : (s.memWrite a v).keys = s.keys := rfl
@[simp] theorem State.memWrite_trace (s : State) (a : Nat) (v : Byte) : (s.memWrite a v).trace = s.trace := rfl
@[simp] theorem State.memWrite_pending (s : State) (a : Nat) (v : Byte) : (s.memWrite a v).pending = s.pending := rfl
@[simp] theorem State.memWrite_frameLeft (s : State) (a : Nat) (v : Byte) : (s.memWrite a v).frameLeft = s.frameLeft := rfl
@[simp] theorem State.memWrite_rndIn (s : State) (a : Nat) (v : Byte) : (s.memWrite a v).rndIn = s.rndIn := rfl
@[simp] theorem State.memWrite_draws (s : State) (a : Nat) (v : Byte) : (s.memWrite a v).draws = s.draws := rfl

/-! ### clearPlane -/

@[simp] theorem State.clearPlane_cfg (s : State) : s.clearPlane.cfg = s.cfg := rfl
@[simp] theorem State.clearPlane_V (s : State) : s.clearPlane.V = s.V := rfl
@[simp] theorem State.clearPlane_I (s : State) : s.clearPlane.I = s.I := rfl
@[simp] theorem State.clearPlane_pc (s : State) : s.clearPlane.pc = s.pc := rfl
@[simp] theorem State.clearPlane_sp (s : State) : s.clearPlane.sp = s.sp := rfl
@[simp] theorem State.clearPlane_stack (s : State) : s.clearPlane.stack = s.stack := rfl
@[simp] theorem State.clearPlane_DT (s : State) : s.clearPlane.DT = s.DT := rfl
@[simp] theorem State.clearPlane_ST (s : State) : s.clearPlane.ST = s.ST := rfl
@[simp] theorem State.clearPlane_mem (s : State) : s.clearPlane.mem = s.mem := rfl
@[simp] theorem State.clearPlane_runState (s : State) : s.clearPlane.runState = s.runState := rfl
@[simp] theorem State.clearPlane_fb (s : State) : s.clearPlane.fb = [] := rfl
@[simp] theorem State.clearPlane_toneOn (s : State) : s.clearPlane.toneOn = s.toneOn := rfl
@[simp] theorem State.clearPlane_keys (s : State) : s.clearPlane.keys = s.keys := rfl
@[simp] theorem State.clearPlane_trace (s : State) : s.clearPlane.trace = s.trace ++ [.dispClear] := rfl
@[simp] theorem State.clearPlane_pending (s : State) : s.clearPlane.pending = s.pending := rfl
@[simp] theorem State.clearPlane_frameLeft (s : State) : s.clearPlane.frameLeft = s.frameLeft := rfl
@[simp] theorem State.clearPlane_rndIn (s : State) : s.clearPlane.rndIn = s.rndIn := rfl
@[simp] theorem State.clearPlane_draws (s : State) : s.clearPlane.draws = s.draws := rfl

/-! ### present -/

@[simp] theorem State.present_cfg (s : State) : s.present.cfg = s.cfg := rfl
@[simp] theorem State.present_V (s : State) : s.present.V = s.V := rfl
@[simp] theorem State.present_I (s : State) : s.present.I = s.I := rfl
@[simp] theorem State.present_pc (s : State) : s.present.pc = s.pc := rfl
@[simp] theorem State.present_sp (s : State) : s.present.sp = s.sp := rfl
@[simp] theorem State.present_stack (s : State) : s.present.stack = s.stack := rfl
@[simp] theorem State.present_DT (s : State) : s.present.DT = s.DT := rfl
@[simp] theorem State.present_ST (s : State) : s.present.ST = s.ST := rfl
@[simp] theorem State.present_mem (s : State) : s.present.mem = s.mem := rfl
@[simp] theorem State.present_runState (s : State) : s.present.runState = s.runState := rfl
@[simp] theorem State.present_fb (s : State) : s.present.fb = s.fb := rfl
@[simp] theorem State.present_toneOn (s : State) : s.present.toneOn = s.toneOn := rfl
@[simp] theorem State.present_keys (s : State) : s.present.keys = s.keys := rfl
@[simp] theorem State.present_trace (s : State) : s.present.trace = s.trace ++ [.dispPresent] := rfl
@[simp] theorem State.present_pending (s : State) : s.present.pending = s.pending := rfl
@[simp] theorem State.present_frameLeft (s : State) : s.present.frameLeft = s.frameLeft := rfl
@[simp] theorem State.present_rndIn (s : State) : s.present.rndIn = s.rndIn := rfl
@[simp] theorem State.present_draws (s : State) : s.present.draws = s.draws := rfl

/-! ### Register reads -/

@[simp] theorem State.getV_setV (s : State) (x r : RegIx) (v : Byte) :
    (s.setV x v).getV r = if r = x then v else s.getV r := by
  simp only [State.getV, State.setV, Fin.getElem_fin, Vector.getElem_set, Fin.ext_iff, eq_comm (a := r.val)]

theorem State.getV_setV_same (s : State) (x : RegIx) (v : Byte) : (s.setV x v).getV x = v := by simp

@[simp] theorem State.getV_setResultThenFlag (s : State) (x r : RegIx) (v f : Byte) :
    (s.setResultThenFlag x v f).getV r = if r = VF then f else if r = x then v else s.getV r := by
  simp [State.setResultThenFlag]

/-- A register read depends on the register file alone. -/
theorem State.getV_congr {s t : State} (h : t.V = s.V) (r : RegIx) : t.getV r = s.getV r := by
  simp [State.getV, h]

/-- A memory read depends on the cells and the parameters alone. -/
theorem State.memRead_congr {s t : State} (hm : t.mem = s.mem) (hc : t.cfg = s.cfg) (a : Nat) :
    t.memRead a = s.memRead a := by
  simp [State.memRead, State.bg, hm, hc]

@[simp] theorem State.getV_emit (s : State) (e : Event) (r : RegIx) : (s.emit e).getV r = s.getV r := rfl
@[simp] theorem State.memRead_emit (s : State) (e : Event) (b : Nat) : (s.emit e).memRead b = s.memRead b := rfl
@[simp] theorem State.bg_emit (s : State) (e : Event) : (s.emit e).bg = s.bg := rfl
@[simp] theorem State.getV_raiseFatal (s : State) (c : FaultCode) (a w : Word) (r : RegIx) : (s.raiseFatal c a w).getV r = s.getV r := rfl
@[simp] theorem State.memRead_raiseFatal (s : State) (c : FaultCode) (a w : Word) (b : Nat) : (s.raiseFatal c a w).memRead b = s.memRead b := rfl
@[simp] theorem State.bg_raiseFatal (s : State) (c : FaultCode) (a w : Word) : (s.raiseFatal c a w).bg = s.bg := rfl
@[simp] theorem State.getV_fatalAt (s : State) (c : FaultCode) (w : Word) (r : RegIx) : (s.fatalAt c w).getV r = s.getV r := rfl
@[simp] theorem State.memRead_fatalAt (s : State) (c : FaultCode) (w : Word) (b : Nat) : (s.fatalAt c w).memRead b = s.memRead b := rfl
@[simp] theorem State.bg_fatalAt (s : State) (c : FaultCode) (w : Word) : (s.fatalAt c w).bg = s.bg := rfl
@[simp] theorem State.memRead_setV (s : State) (x : RegIx) (v : Byte) (b : Nat) : (s.setV x v).memRead b = s.memRead b := rfl
@[simp] theorem State.bg_setV (s : State) (x : RegIx) (v : Byte) : (s.setV x v).bg = s.bg := rfl
@[simp] theorem State.memRead_setResultThenFlag (s : State) (x : RegIx) (v f : Byte) (b : Nat) : (s.setResultThenFlag x v f).memRead b = s.memRead b := rfl
@[simp] theorem State.bg_setResultThenFlag (s : State) (x : RegIx) (v f : Byte) : (s.setResultThenFlag x v f).bg = s.bg := rfl
@[simp] theorem State.getV_setPc (s : State) (a : Word) (r : RegIx) : (s.setPc a).getV r = s.getV r := rfl
@[simp] theorem State.memRead_setPc (s : State) (a : Word) (b : Nat) : (s.setPc a).memRead b = s.memRead b := rfl
@[simp] theorem State.bg_setPc (s : State) (a : Word) : (s.setPc a).bg = s.bg := rfl
@[simp] theorem State.getV_skip (s : State) (r : RegIx) : s.skip.getV r = s.getV r := rfl
@[simp] theorem State.memRead_skip (s : State) (b : Nat) : s.skip.memRead b = s.memRead b := rfl
@[simp] theorem State.bg_skip (s : State) : s.skip.bg = s.bg := rfl
@[simp] theorem State.getV_memWrite (s : State) (a : Nat) (v : Byte) (r : RegIx) : (s.memWrite a v).getV r = s.getV r := rfl
@[simp] theorem State.bg_memWrite (s : State) (a : Nat) (v : Byte) : (s.memWrite a v).bg = s.bg := rfl
@[simp] theorem State.getV_clearPlane (s : State) (r : RegIx) : s.clearPlane.getV r = s.getV r := rfl
@[simp] theorem State.memRead_clearPlane (s : State) (b : Nat) : s.clearPlane.memRead b = s.memRead b := rfl
@[simp] theorem State.bg_clearPlane (s : State) : s.clearPlane.bg = s.bg := rfl
@[simp] theorem State.getV_present (s : State) (r : RegIx) : s.present.getV r = s.getV r := rfl
@[simp] theorem State.memRead_present (s : State) (b : Nat) : s.present.memRead b = s.memRead b := rfl
@[simp] theorem State.bg_present (s : State) : s.present.bg = s.bg := rfl

/-! ### skipIf -/

theorem State.skipIf_eq (s : State) (c : Bool) : s.skipIf c = { s with pc := if c then s.pc + 2 else s.pc } := by
  cases c <;> rfl

@[simp] theorem State.skipIf_pc (s : State) (c : Bool) : (s.skipIf c).pc = if c then s.pc + 2 else s.pc := by
  cases c <;> rfl

/-! ### powerOn -/

@[simp] theorem State.powerOn_cfg (c : Config) : (State.powerOn c).cfg = c := rfl
@[simp] theorem State.powerOn_V (c : Config) : (State.powerOn c).V = Vector.replicate 16 0 := rfl
@[simp] theorem State.powerOn_I (c : Config) : (State.powerOn c).I = 0 := rfl
@[simp] theorem State.powerOn_pc (c : Config) : (State.powerOn c).pc = 0x200 := rfl
@[simp] theorem State.powerOn_sp (c : Config) : (State.powerOn c).sp = 0 := rfl
@[simp] theorem State.powerOn_stack (c : Config) : (State.powerOn c).stack = Vector.replicate 16 0 := rfl
@[simp] theorem State.powerOn_DT (c : Config) : (State.powerOn c).DT = 0 := rfl
@[simp] theorem State.powerOn_ST (c : Config) : (State.powerOn c).ST = 0 := rfl
@[simp] theorem State.powerOn_mem (c : Config) : (State.powerOn c).mem = [] := rfl
@[simp] theorem State.powerOn_runState (c : Config) : (State.powerOn c).runState = .running := rfl
@[simp] theorem State.powerOn_fb (c : Config) : (State.powerOn c).fb = [] := rfl
@[simp] theorem State.powerOn_toneOn (c : Config) : (State.powerOn c).toneOn = false := rfl
@[simp] theorem State.powerOn_keys (c : Config) : (State.powerOn c).keys = 0 := rfl
@[simp] theorem State.powerOn_trace (c : Config) : (State.powerOn c).trace = [] := rfl
@[simp] theorem State.powerOn_pending (c : Config) : (State.powerOn c).pending = [] := rfl
@[simp] theorem State.powerOn_frameLeft (c : Config) : (State.powerOn c).frameLeft = 0 := rfl
@[simp] theorem State.powerOn_rndIn (c : Config) : (State.powerOn c).rndIn = [] := rfl
@[simp] theorem State.powerOn_draws (c : Config) : (State.powerOn c).draws = 0 := rfl

/-- The open tone frequency is positive, whatever it is (00_scope.md R8). -/
theorem toneFreqOpen_pos : 0 < Config.toneFreqOpen := by
  unfold Config.toneFreqOpen; positivity

end Sys2Proof.Machine
end

