-- ==== Sys2Proof/Laws/Ops.lean ====
section
/-! SUPPORT. One lemma per shared operation that says everything it does; later proofs cite these. -/

namespace Sys2Proof.Machine

/-! ### What is kept -/

theorem OnlyChanges.refl (ps : List Part) (s : State) : OnlyChanges ps s s := by
  intro p _; cases p <;> simp [Part.Same]

theorem Part.Same.trans {s t u : State} {p : Part} (h : Part.Same s t p) (k : Part.Same t u p) : Part.Same s u p := by
  cases p <;> simp_all [Part.Same]

theorem OnlyChanges.trans {ps : List Part} {s t u : State} (h : OnlyChanges ps s t) (k : OnlyChanges ps t u) :
    OnlyChanges ps s u := fun p hp => (h p hp).trans (k p hp)

theorem OnlyChanges.mono {ps qs : List Part} {s t : State} (hsub : ps ⊆ qs) (h : OnlyChanges ps s t) :
    OnlyChanges qs s t := fun p hp => h p fun hm => hp (hsub hm)

/-! ### Fatal conditions -/

/-- Everything `raise Fatal` does (60_exceptions.md R231). -/
theorem haltsWith_raiseFatal (c : FaultCode) (a w : Word) (s : State) :
    HaltsWith ⟨c, a, w⟩ s (s.raiseFatal c a w) := by
  refine ⟨fun p hp => ?_, rfl, rfl⟩
  cases p <;> simp_all [Part.Same]

theorem haltsWith_fatalAt (c : FaultCode) (w : Word) (s : State) :
    HaltsWith ⟨c, s.pc - 2, w⟩ s (s.fatalAt c w) := haltsWith_raiseFatal c (s.pc - 2) w s

/-! ### The call stack -/

theorem popPc?_eq_none {s : State} : s.popPc? = none ↔ s.sp.val = 0 := by
  unfold State.popPc?; split <;> simp <;> omega

theorem popPc?_eq_some {s : State} (k : Fin 16) (h : s.sp.val = k.val + 1) :
    s.popPc? = some { s with sp := k.castSucc, pc := s.stack[k] } := by
  unfold State.popPc?
  rw [dif_pos (by omega)]
  simp [h, Fin.castSucc, Fin.castAdd, Fin.castLE]

theorem pushPc?_eq_none {s : State} : s.pushPc? = none ↔ s.sp.val = 16 := by
  unfold State.pushPc?; split <;> simp <;> omega

theorem pushPc?_eq_some {s : State} (k : Fin 16) (h : s.sp.val = k.val) :
    s.pushPc? = some { s with stack := s.stack.set k s.pc, sp := k.succ } := by
  unfold State.pushPc?
  rw [dif_pos (by omega)]
  simp [h, Fin.succ]

/-- sp is 0 or counts a top entry. -/
theorem sp_cases (s : State) : s.sp.val = 0 ∨ ∃ k : Fin 16, s.sp.val = k.val + 1 := by
  rcases Nat.eq_zero_or_pos s.sp.val with h | h
  · exact .inl h
  · exact .inr ⟨⟨s.sp.val - 1, by omega⟩, by simp only; omega⟩

/-- sp is 16 or names a free entry. -/
theorem sp_cases_push (s : State) : s.sp.val = 16 ∨ ∃ k : Fin 16, s.sp.val = k.val := by
  rcases Nat.lt_or_ge s.sp.val 16 with h | h
  · exact .inr ⟨⟨s.sp.val, h⟩, rfl⟩
  · exact .inl (by omega)

/-! ### Memory and block transfers -/

theorem State.memRead_memWrite {s : State} (h : Memory.Rising s.mem) (a b : Nat) (v : Byte) :
    (s.memWrite a v).memRead b = if b = a then v else s.memRead b :=
  Memory.read_write h

theorem State.outOfRange_iff (s : State) (n : Nat) : s.outOfRange n = true ↔ 0 < n ∧ 0xFFF < s.I.toNat + (n - 1) :=
  decide_eq_true_iff

@[simp] theorem mem_regsUpTo (x r : RegIx) : r ∈ regsUpTo x ↔ r ≤ x := by simp [regsUpTo]

theorem State.storeRegs_eq (base : Nat) (is : List RegIx) (s : State) :
    s.storeRegs base is = { s with mem := (s.storeRegs base is).mem } := by
  unfold State.storeRegs
  induction is generalizing s with
  | nil => rfl
  | cons i is ih => rw [List.foldl_cons, ih]; rfl

theorem State.rising_storeRegs {base : Nat} {is : List RegIx} {s : State} (h : Memory.Rising s.mem) :
    Memory.Rising (s.storeRegs base is).mem := by
  unfold State.storeRegs
  induction is generalizing s with
  | nil => exact h
  | cons i is ih => exact ih (s := s.memWrite (base + i.val) (s.getV i)) (Memory.rising_write h)

theorem State.memRead_storeRegs_off {base : Nat} {is : List RegIx} {s : State} (h : Memory.Rising s.mem) {a : Nat}
    (ha : ∀ i ∈ is, a ≠ base + i.val) : (s.storeRegs base is).memRead a = s.memRead a := by
  unfold State.storeRegs
  induction is generalizing s with
  | nil => rfl
  | cons i is ih =>
    have := ih (s := s.memWrite (base + i.val) (s.getV i)) (Memory.rising_write h) fun j hj => ha j (by simp [hj])
    rw [List.foldl_cons, this, State.memRead_memWrite h, if_neg (ha i (by simp))]

theorem State.memRead_storeRegs {base : Nat} {is : List RegIx} {s : State} (h : Memory.Rising s.mem) {r : RegIx}
    (hr : r ∈ is) : (s.storeRegs base is).memRead (base + r.val) = s.getV r := by
  induction is generalizing s with
  | nil => simp at hr
  | cons i is ih =>
    by_cases his : r ∈ is
    · exact ih (s := s.memWrite (base + i.val) (s.getV i)) (Memory.rising_write h) his
    · have hri : r = i := by simpa [his] using hr
      subst hri
      have := State.memRead_storeRegs_off (base := base) (is := is) (s := s.memWrite (base + r.val) (s.getV r))
        (a := base + r.val) (Memory.rising_write h) fun j hj hjr => his (by
          rwa [show r = j from Fin.ext (by omega)])
      exact this.trans (by rw [State.memRead_memWrite h, if_pos rfl])

theorem State.wf_storeRegs {base : Nat} {is : List RegIx} {s : State} (h : Memory.wf s.bg s.mem)
    (ha : ∀ i ∈ is, base + i.val < 4096) : Memory.wf s.bg (s.storeRegs base is).mem := by
  unfold State.storeRegs
  induction is generalizing s with
  | nil => exact h
  | cons i is ih =>
    exact ih (s := s.memWrite (base + i.val) (s.getV i)) (Memory.wf_write h (ha i (by simp)))
      fun j hj => ha j (by simp [hj])

theorem State.loadRegs_eq (base : Nat) (is : List RegIx) (s : State) :
    s.loadRegs base is = { s with V := (s.loadRegs base is).V } := by
  unfold State.loadRegs
  induction is generalizing s with
  | nil => rfl
  | cons i is ih => rw [List.foldl_cons, ih]; rfl

theorem State.getV_loadRegs {base : Nat} {is : List RegIx} {s : State} (r : RegIx) :
    (s.loadRegs base is).getV r = if r ∈ is then s.memRead (base + r.val) else s.getV r := by
  unfold State.loadRegs
  induction is generalizing s with
  | nil => rfl
  | cons i is ih =>
    rw [List.foldl_cons, ih]
    by_cases his : r ∈ is
    · simp [his]
    · by_cases hri : r = i <;> simp [his, hri]

/-! ### Toggling many pixels -/

/-- The plane after flipping the pixels in order. -/
def Plane.flipAll (ps fb : List Pixel) : List Pixel := ps.foldl (fun f p => Plane.flip p f) fb

/-- Whether some flip in order turns a lit pixel off. -/
def Plane.anyOff : List Pixel → List Pixel → Bool
  | [], _ => false
  | p :: ps, fb => Plane.lit fb p || Plane.anyOff ps (Plane.flip p fb)

/-- Everything `toggleAll` does (44_display.md R190, R195). -/
theorem State.toggleAll_eq (pts : List (Nat × Nat)) (s : State) :
    let ps := pts.map fun p => (p.1 % s.cfg.width, p.2 % s.cfg.height)
    State.toggleAll pts s =
      ({ s with fb := Plane.flipAll ps s.fb, trace := s.trace ++ ps.map fun p => Event.dispToggle p.1 p.2 },
        Plane.anyOff ps s.fb) := by
  induction pts generalizing s with
  | nil => simp [State.toggleAll, Plane.flipAll, Plane.anyOff]
  | cons q qs ih =>
    simp only at ih
    simp only [State.toggleAll, ih, State.toggle, Plane.wrap_natCast, State.emit, List.map_cons, Plane.flipAll,
      List.foldl_cons, Plane.anyOff, List.append_assoc, List.singleton_append]

theorem Plane.rising_flipAll {ps fb : List Pixel} (h : fb.Pairwise Pixel.before) :
    (Plane.flipAll ps fb).Pairwise Pixel.before := by
  induction ps generalizing fb with
  | nil => exact h
  | cons p ps ih => exact ih (Plane.rising_flip h)

theorem Plane.wf_flipAll {w h : Nat} {ps fb : List Pixel} (hw : Plane.wf w h fb) (hp : ∀ p ∈ ps, p.1 < w ∧ p.2 < h) :
    Plane.wf w h (Plane.flipAll ps fb) := by
  induction ps generalizing fb with
  | nil => exact hw
  | cons p ps ih => exact ih (Plane.wf_flip hw (hp p (by simp))) fun q hq => hp q (by simp [hq])

/-- A pixel ends flipped as often as it was toggled. -/
theorem Plane.mem_flipAll {ps fb : List Pixel} (h : fb.Pairwise Pixel.before) (p : Pixel) :
    p ∈ Plane.flipAll ps fb ↔ litAfter ps fb p := by
  induction ps generalizing fb with
  | nil => simp [Plane.flipAll, litAfter]
  | cons q qs ih =>
    show p ∈ Plane.flipAll qs (Plane.flip q fb) ↔ _
    rw [ih (Plane.rising_flip h)]
    simp only [litAfter, Plane.mem_flip h, List.count_cons, beq_iff_eq]
    by_cases hpq : p = q
    · subst hpq
      simp only [if_true]
      have : (List.count p qs + 1) % 2 = 0 ↔ ¬ List.count p qs % 2 = 0 := by omega
      rw [this]
      by_cases p ∈ fb <;> by_cases List.count p qs % 2 = 0 <;> simp_all
    · simp [hpq, Ne.symm hpq]

theorem Plane.anyOff_iff {ps fb : List Pixel} (h : fb.Pairwise Pixel.before) :
    Plane.anyOff ps fb = true ↔ ∃ k, togglesOff ps fb k := by
  induction ps generalizing fb with
  | nil => simp [Plane.anyOff, togglesOff]
  | cons q qs ih =>
    have shift : ∀ k, togglesOff (q :: qs) fb (k + 1) ↔ togglesOff qs (Plane.flip q fb) k := fun k => by
      simp only [togglesOff, List.getElem?_cons_succ, List.take_succ_cons]
      refine exists_congr fun p => and_congr_right fun _ => ?_
      rw [← Plane.mem_flipAll h, ← Plane.mem_flipAll (Plane.rising_flip h)]
      rfl
    have zero : togglesOff (q :: qs) fb 0 ↔ q ∈ fb := by simp [togglesOff, litAfter]
    simp only [Plane.anyOff, Bool.or_eq_true, Plane.lit_iff, ih (Plane.rising_flip h)]
    constructor
    · rintro (hq | ⟨k, hk⟩)
      · exact ⟨0, zero.mpr hq⟩
      · exact ⟨k + 1, (shift k).mpr hk⟩
    · rintro ⟨_ | k, hk⟩
      · exact .inl (zero.mp hk)
      · exact .inr ⟨k, (shift k).mp hk⟩

/-- The points DRW toggles, wrapped, are the sprite's pixels. -/
theorem State.spritePoints_wrapped (s : State) (xs ys n : Nat) :
    ((s.spritePoints (s.ea 0) xs ys n).map fun p => (p.1 % s.cfg.width, p.2 % s.cfg.height)) =
      spritePixels xs ys n s := by
  simp [State.spritePoints, spritePixels, spriteBits, State.ea, List.map_flatMap, Function.comp_def]

theorem spritePixels_lt {s : State} (h : s.cfg.wf) (xs ys n : Nat) :
    ∀ p ∈ spritePixels xs ys n s, p.1 < s.cfg.width ∧ p.2 < s.cfg.height := by
  intro p hp
  simp only [spritePixels, List.mem_flatMap, List.mem_map] at hp
  obtain ⟨row, -, bit, -, rfl⟩ := hp
  exact ⟨Nat.mod_lt _ h.1, Nat.mod_lt _ h.2.1⟩

/-! ### The random port -/

/-- Everything a draw does: one draw is counted, and the byte is the waiting one or a free value. -/
theorem State.drawRnd_eq (s : State) :
    s.drawRnd.2 = { s with rndIn := s.rndIn.tail, draws := s.draws + 1 } ∧
      s.drawRnd.1 = s.rndIn.headD (Config.randomByte s.draws) := by
  unfold State.drawRnd; split <;> simp_all

/-! ### Inputs -/

/-- The lowest pressed key of a key vector (60_exceptions.md R245). -/
theorem lowestKey_eq_some {keys : Word} {n : Nat} (h : lowestKey keys = some n) :
    n < 16 ∧ keys.getLsbD n = true ∧ ∀ m < n, keys.getLsbD m = false := by
  have := List.find?_range_eq_some.mp h
  exact ⟨by simpa using this.2.1, this.1, fun m hm => by simpa using this.2.2 m hm⟩

theorem lowestKey_eq_none {keys : Word} : lowestKey keys = none ↔ keys = 0 := by
  simp only [lowestKey, List.find?_eq_none, List.mem_range, Bool.not_eq_true]
  constructor
  · intro h
    exact BitVec.eq_of_getLsbD_eq fun i hi => by simpa using h i hi
  · rintro rfl; simp

end Sys2Proof.Machine
end

