-- ==== Sys2Proof/Laws/Cycle.lean ====
section
/-! SUPPORT. What one cycle, one frame's start, a load and one step can do: the case analyses later proofs start from. -/

namespace Sys2Proof.Machine

/-- What no instruction touches, and that none takes an event back from the trace. -/
theorem exec_keeps {i : Instr} {s t : State} (h : exec i s = .next t) :
    t.cfg = s.cfg ∧ t.toneOn = s.toneOn ∧ t.keys = s.keys ∧ t.pending = s.pending ∧ t.frameLeft = s.frameLeft ∧
      s.trace <+: t.trace := by
  have skip : ∀ b, (s.skipIf b).cfg = s.cfg ∧ (s.skipIf b).toneOn = s.toneOn ∧ (s.skipIf b).keys = s.keys ∧
      (s.skipIf b).pending = s.pending ∧ (s.skipIf b).frameLeft = s.frameLeft ∧ s.trace <+: (s.skipIf b).trace :=
    fun b => by rw [State.skipIf_eq]; simp
  cases i
  case ret =>
    rcases sp_cases s with hs | ⟨k, hk⟩
    · simp only [exec, execRet, popPc?_eq_none.mpr hs] at h; cases h; simp
    · simp only [exec, execRet, popPc?_eq_some k hk] at h; cases h; simp
  case call =>
    rcases sp_cases_push s with hs | ⟨k, hk⟩
    · simp only [exec, execCall, pushPc?_eq_none.mpr hs] at h; cases h; simp
    · simp only [exec, execCall, pushPc?_eq_some k hk] at h; cases h; simp
  case ldB => simp only [exec, execLdB] at h; split at h <;> cases h <;> simp
  case drw => simp only [exec, execDrw] at h; split at h <;> cases h <;> simp [State.toggleAll_eq]
  case ldMemVx =>
    simp only [exec, execLdMemVx] at h
    split at h <;> (try split at h) <;> cases h
    · simp
    · simp
    · rw [State.storeRegs_eq]; simp
  case ldVxMem =>
    simp only [exec, execLdVxMem] at h
    split at h <;> (try split at h) <;> cases h
    · simp
    · simp
    · rw [State.loadRegs_eq]; simp
  case rnd => cases h; simp [(State.drawRnd_eq s).1]
  case seByte | sneByte | seReg | sneReg | skp | sknp => cases h; exact skip _
  all_goals (cases h; simp)

/-- One cycle: nothing unless RUNNING (R106), else the instruction at pc (R100 to R103) or the fetch fault (R101). -/
theorem stepCycle_cases {s t : State} (h : stepCycle s = .next t) :
    (s.runState ≠ .running ∧ t = s) ∨
    (s.runState = .running ∧ s.pc.toNat ≤ 0xFFE ∧ exec (decode s.fetchWord) { s with pc := s.pc + 2 } = .next t) ∨
    (s.runState = .running ∧ 0xFFE < s.pc.toNat ∧ t = s.raiseFatal .fetchOutOfRange s.pc 0) := by
  simp only [stepCycle] at h
  split at h
  · cases h; simp_all
  · cases h; simp_all
  · rename_i hr
    split at h
    · rename_i hc; exact .inr (.inl ⟨hr, by simpa [State.canFetch] using hc, h⟩)
    · rename_i hc; cases h; exact .inr (.inr ⟨hr, by simpa [State.canFetch] using hc, rfl⟩)

/-- What a cycle keeps. -/
theorem stepCycle_keeps {s t : State} (h : stepCycle s = .next t) :
    t.cfg = s.cfg ∧ t.pending = s.pending ∧ t.frameLeft = s.frameLeft ∧ s.trace <+: t.trace := by
  rcases stepCycle_cases h with ⟨_, rfl⟩ | ⟨_, _, he⟩ | ⟨_, _, rfl⟩
  · simp
  · have := exec_keeps he; exact ⟨this.1, this.2.2.2.1, this.2.2.2.2.1, this.2.2.2.2.2⟩
  · simp

/-- The end of a frame's cycle changes the loop's count alone. -/
theorem State.endCycle_eq (s : State) : s.endCycle = { s with frameLeft := s.endCycle.frameLeft } := by
  unfold State.endCycle; split <;> rfl

/-- The start of a frame, by run state (R110 to R113). -/
theorem State.beginFrame_cases (k : Word) (s : State) :
    (∃ f, s.runState = .halted f ∧ s.beginFrame k = { s with keys := k }) ∨
    (∃ r, s.runState = .awaitingKey r ∧ s.beginFrame k = State.awaitResolve r { s with keys := k }) ∨
    (s.runState = .running ∧
      s.beginFrame k = { State.timerStep { s with keys := k } with frameLeft := s.cfg.cyclesPerFrame }) := by
  cases h : s.runState with
  | halted f => exact .inl ⟨f, rfl, by simp only [State.beginFrame, h]⟩
  | awaitingKey r => exact .inr (.inl ⟨r, rfl, by simp only [State.beginFrame, h]⟩)
  | running => exact .inr (.inr ⟨rfl, by simp only [State.beginFrame, h, State.timerStep, State.toneDecision]⟩)

/-- One step: a cycle of the frame in progress, a bare cycle, or the start of the oldest pending transaction. -/
theorem step_cases {s t : State} (h : step s = .next t) :
    (∃ n u, s.frameLeft = n + 1 ∧ stepCycle s = .next u ∧ t = u.endCycle) ∨
    (s.frameLeft = 0 ∧ s.pending = [] ∧ stepCycle s = .next t) ∨
    (∃ x ts, s.frameLeft = 0 ∧ s.pending = x :: ts ∧ beginTransaction x { s with pending := ts } = .next t) := by
  unfold step advance at h
  split at h
  · rename_i n hn
    cases hu : stepCycle s with
    | next u => rw [frameCycle, hu] at h; cases h; exact .inl ⟨n, u, hn, rfl, rfl⟩
    | fault f => cases f
    | refused r => rw [frameCycle, hu] at h; cases h
  · rename_i hn
    split at h
    · rename_i x ts hx; exact .inr (.inr ⟨x, ts, hn, hx, h⟩)
    · rename_i hx; exact .inr (.inl ⟨hn, hx, h⟩)

/-! ### The cycle loop and runs -/

theorem runCycles_running {n : Nat} {s u : State} (hr : s.runState = .running) (h : stepCycle s = .next u) :
    runCycles (n + 1) s = runCycles n u := by
  rw [runCycles]; split <;> simp_all

theorem runCycles_idle {n : Nat} {s : State} (hr : s.runState ≠ .running) : runCycles n s = .next s := by
  cases n with
  | zero => rfl
  | succ n => rw [runCycles]; split <;> simp_all

theorem run_succ {n : Nat} {s u : State} (h : step s = .next u) :
    Host.Core.run Sys2Proof.core (n + 1) s = Host.Core.run Sys2Proof.core n u := by
  have h' : Sys2Proof.core.step s = .next u := h
  simp only [Host.Core.run, h']

end Sys2Proof.Machine
end

