-- ==== Sys2Proof/Laws/Encoding.lean ====
section
/-! SUPPORT. What each field of an encoded word reads as, and what each field of a word is as a number. -/

namespace Sys2Proof

/-! ### A field as a number: digits of the word in base 16 -/

theorem fieldOp_toNat (w : Word) : (fieldOp w).toNat = w.toNat / 0x1000 := by
  have := w.isLt
  simp only [fieldOp, BitVec.extractLsb'_toNat, Nat.shiftRight_eq_div_pow]; omega

theorem fieldHi_toNat (w : Word) : (fieldHi w).toNat = w.toNat / 0x100 % 0x10 := by
  simp only [fieldHi, BitVec.extractLsb'_toNat, Nat.shiftRight_eq_div_pow]

theorem fieldX_val (w : Word) : (fieldX w).val = w.toNat / 0x100 % 0x10 := by
  simp only [fieldX, BitVec.val_toFin, BitVec.extractLsb'_toNat, Nat.shiftRight_eq_div_pow]

theorem fieldY_val (w : Word) : (fieldY w).val = w.toNat / 0x10 % 0x10 := by
  simp only [fieldY, BitVec.val_toFin, BitVec.extractLsb'_toNat, Nat.shiftRight_eq_div_pow]

theorem fieldN_toNat (w : Word) : (fieldN w).toNat = w.toNat % 0x10 := by
  simp only [fieldN, BitVec.extractLsb'_toNat, Nat.shiftRight_eq_div_pow]; omega

theorem fieldKK_toNat (w : Word) : (fieldKK w).toNat = w.toNat % 0x100 := by
  simp only [fieldKK, BitVec.extractLsb'_toNat, Nat.shiftRight_eq_div_pow]; omega

theorem fieldNNN_toNat (w : Word) : (fieldNNN w).toNat = w.toNat % 0x1000 := by
  simp only [fieldNNN, BitVec.extractLsb'_toNat, Nat.shiftRight_eq_div_pow]; omega

/-! ### The encoders as numbers -/

theorem encNNN_toNat {op : Nat} (h : op < 16) (nnn : Addr12) :
    (encNNN op nnn).toNat = op * 0x1000 + nnn.toNat := by
  have := nnn.isLt
  simp only [encNNN, BitVec.toNat_ofNat]; omega

theorem encXKK_toNat {op x : Nat} (h : op < 16) (hx : x < 16) (kk : Byte) :
    (encXKK op x kk).toNat = op * 0x1000 + x * 0x100 + kk.toNat := by
  have := kk.isLt
  simp only [encXKK, BitVec.toNat_ofNat]; omega

theorem encXYN_toNat {op : Nat} (h : op < 16) (x y : RegIx) (n : Nibble) :
    (encXYN op x y n).toNat = op * 0x1000 + x.val * 0x100 + y.val * 0x10 + n.toNat := by
  have := n.isLt
  have := x.isLt
  have := y.isLt
  simp only [encXYN, BitVec.toNat_ofNat]; omega

/-! ### The fields of an encoded word -/

theorem fields_encNNN {op : Nat} (h : op < 16) (nnn : Addr12) :
    (fieldOp (encNNN op nnn)).toNat = op ∧ fieldNNN (encNNN op nnn) = nnn := by
  have := nnn.isLt
  refine ⟨?_, BitVec.eq_of_toNat_eq ?_⟩
  · rw [fieldOp_toNat, encNNN_toNat h]; omega
  · rw [fieldNNN_toNat, encNNN_toNat h]; omega

theorem fields_encXKK {op : Nat} (h : op < 16) (x : RegIx) (kk : Byte) :
    (fieldOp (encXKK op x kk)).toNat = op ∧ fieldX (encXKK op x kk) = x ∧ fieldKK (encXKK op x kk) = kk := by
  have := kk.isLt
  have := x.isLt
  refine ⟨?_, Fin.ext ?_, BitVec.eq_of_toNat_eq ?_⟩
  · rw [fieldOp_toNat, encXKK_toNat h x.isLt]; omega
  · rw [fieldX_val, encXKK_toNat h x.isLt]; omega
  · rw [fieldKK_toNat, encXKK_toNat h x.isLt]; omega

theorem fields_encXKK_ign {op : Nat} (h : op < 16) (g : Nibble) (kk : Byte) :
    (fieldOp (encXKK op g.toNat kk)).toNat = op ∧ fieldHi (encXKK op g.toNat kk) = g ∧
      fieldKK (encXKK op g.toNat kk) = kk := by
  have := kk.isLt
  have := g.isLt
  refine ⟨?_, BitVec.eq_of_toNat_eq ?_, BitVec.eq_of_toNat_eq ?_⟩
  · rw [fieldOp_toNat, encXKK_toNat h (by omega)]; omega
  · rw [fieldHi_toNat, encXKK_toNat h (by omega)]; omega
  · rw [fieldKK_toNat, encXKK_toNat h (by omega)]; omega

theorem fields_encXYN {op : Nat} (h : op < 16) (x y : RegIx) (n : Nibble) :
    (fieldOp (encXYN op x y n)).toNat = op ∧ fieldX (encXYN op x y n) = x ∧ fieldY (encXYN op x y n) = y ∧
      fieldN (encXYN op x y n) = n := by
  have := n.isLt
  have := x.isLt
  have := y.isLt
  refine ⟨?_, Fin.ext ?_, Fin.ext ?_, BitVec.eq_of_toNat_eq ?_⟩
  · rw [fieldOp_toNat, encXYN_toNat h]; omega
  · rw [fieldX_val, encXYN_toNat h]; omega
  · rw [fieldY_val, encXYN_toNat h]; omega
  · rw [fieldN_toNat, encXYN_toNat h]; omega

/-! ### The class test as the numbers of 30_encoding.md R77 -/

theorem isUnrecognized_iff (w : Word) : isUnrecognized w = true ↔ Machine.unrecognizedClass w.toNat := by
  have hop := fieldOp_toNat w
  have hkk := fieldKK_toNat w
  have hn := fieldN_toNat w
  simp only [fieldOp, fieldKK, fieldN] at hop hkk hn
  simp [isUnrecognized, Machine.unrecognizedClass, hop, hkk, hn, or_assoc]

end Sys2Proof
end

