-- ==== Sys2Proof/Laws/PerInstr.lean ====
section
/-! SUPPORT. Statements made per instruction. `PrimaryKey`: the top digit of an instruction's word is the primary key of
its pattern (30_encoding.md R73, R76), and for `unknown` one of the four two-level keys (R77). -/

namespace Sys2Proof.Laws.PrimaryKey

/-- The primary key of an instruction's pattern; of an unrecognized word, its own. -/
def key : Instr → Nat
  | .cls _ | .ret _ => 0x0
  | .jp _ => 0x1
  | .call _ => 0x2
  | .seByte _ _ => 0x3
  | .sneByte _ _ => 0x4
  | .seReg _ _ _ => 0x5
  | .ldByte _ _ => 0x6
  | .addByte _ _ => 0x7
  | .ldReg _ _ | .orReg _ _ | .andReg _ _ | .xorReg _ _ | .addReg _ _ | .subReg _ _ | .shr _ _ | .subnReg _ _
  | .shl _ _ => 0x8
  | .sneReg _ _ _ => 0x9
  | .ldI _ => 0xA
  | .jpV0 _ => 0xB
  | .rnd _ _ => 0xC
  | .drw _ _ _ => 0xD
  | .skp _ | .sknp _ => 0xE
  | .ldVxDT _ | .ldVxK _ | .ldDTVx _ | .ldSTVx _ | .addI _ | .ldF _ | .ldB _ | .ldMemVx _ | .ldVxMem _ => 0xF
  | .unknown w => w.toNat / 0x1000

/-- The encoded word's top digit is the key, and a well-formed unrecognized word is of a two-level group. -/
def Statement (i : Instr) : Prop :=
  (fieldOp (encode i)).toNat = key i ∧ (i = .unknown (encode i) → i.wf = true → key i ∈ [0x0, 0x8, 0xE, 0xF])

theorem cls (ign : Nibble) : Statement (.cls ign) := ⟨(fields_encXKK_ign (by decide) ign _).1, nofun⟩
theorem ret (ign : Nibble) : Statement (.ret ign) := ⟨(fields_encXKK_ign (by decide) ign _).1, nofun⟩
theorem jp (nnn : Addr12) : Statement (.jp nnn) := ⟨(fields_encNNN (by decide) nnn).1, nofun⟩
theorem call (nnn : Addr12) : Statement (.call nnn) := ⟨(fields_encNNN (by decide) nnn).1, nofun⟩
theorem seByte (x : RegIx) (kk : Byte) : Statement (.seByte x kk) := ⟨(fields_encXKK (by decide) x kk).1, nofun⟩
theorem sneByte (x : RegIx) (kk : Byte) : Statement (.sneByte x kk) := ⟨(fields_encXKK (by decide) x kk).1, nofun⟩
theorem seReg (x y : RegIx) (ign : Nibble) : Statement (.seReg x y ign) := ⟨(fields_encXYN (by decide) x y ign).1, nofun⟩
theorem ldByte (x : RegIx) (kk : Byte) : Statement (.ldByte x kk) := ⟨(fields_encXKK (by decide) x kk).1, nofun⟩
theorem addByte (x : RegIx) (kk : Byte) : Statement (.addByte x kk) := ⟨(fields_encXKK (by decide) x kk).1, nofun⟩
theorem ldReg (x y : RegIx) : Statement (.ldReg x y) := ⟨(fields_encXYN (by decide) x y _).1, nofun⟩
theorem orReg (x y : RegIx) : Statement (.orReg x y) := ⟨(fields_encXYN (by decide) x y _).1, nofun⟩
theorem andReg (x y : RegIx) : Statement (.andReg x y) := ⟨(fields_encXYN (by decide) x y _).1, nofun⟩
theorem xorReg (x y : RegIx) : Statement (.xorReg x y) := ⟨(fields_encXYN (by decide) x y _).1, nofun⟩
theorem addReg (x y : RegIx) : Statement (.addReg x y) := ⟨(fields_encXYN (by decide) x y _).1, nofun⟩
theorem subReg (x y : RegIx) : Statement (.subReg x y) := ⟨(fields_encXYN (by decide) x y _).1, nofun⟩
theorem shr (x ignY : RegIx) : Statement (.shr x ignY) := ⟨(fields_encXYN (by decide) x ignY _).1, nofun⟩
theorem subnReg (x y : RegIx) : Statement (.subnReg x y) := ⟨(fields_encXYN (by decide) x y _).1, nofun⟩
theorem shl (x ignY : RegIx) : Statement (.shl x ignY) := ⟨(fields_encXYN (by decide) x ignY _).1, nofun⟩
theorem sneReg (x y : RegIx) (ign : Nibble) : Statement (.sneReg x y ign) :=
  ⟨(fields_encXYN (by decide) x y ign).1, nofun⟩
theorem ldI (nnn : Addr12) : Statement (.ldI nnn) := ⟨(fields_encNNN (by decide) nnn).1, nofun⟩
theorem jpV0 (nnn : Addr12) : Statement (.jpV0 nnn) := ⟨(fields_encNNN (by decide) nnn).1, nofun⟩
theorem rnd (x : RegIx) (kk : Byte) : Statement (.rnd x kk) := ⟨(fields_encXKK (by decide) x kk).1, nofun⟩
theorem drw (x y : RegIx) (n : Nibble) : Statement (.drw x y n) := ⟨(fields_encXYN (by decide) x y n).1, nofun⟩
theorem skp (x : RegIx) : Statement (.skp x) := ⟨(fields_encXKK (by decide) x _).1, nofun⟩
theorem sknp (x : RegIx) : Statement (.sknp x) := ⟨(fields_encXKK (by decide) x _).1, nofun⟩
theorem ldVxDT (x : RegIx) : Statement (.ldVxDT x) := ⟨(fields_encXKK (by decide) x _).1, nofun⟩
theorem ldVxK (x : RegIx) : Statement (.ldVxK x) := ⟨(fields_encXKK (by decide) x _).1, nofun⟩
theorem ldDTVx (x : RegIx) : Statement (.ldDTVx x) := ⟨(fields_encXKK (by decide) x _).1, nofun⟩
theorem ldSTVx (x : RegIx) : Statement (.ldSTVx x) := ⟨(fields_encXKK (by decide) x _).1, nofun⟩
theorem addI (x : RegIx) : Statement (.addI x) := ⟨(fields_encXKK (by decide) x _).1, nofun⟩
theorem ldF (x : RegIx) : Statement (.ldF x) := ⟨(fields_encXKK (by decide) x _).1, nofun⟩
theorem ldB (x : RegIx) : Statement (.ldB x) := ⟨(fields_encXKK (by decide) x _).1, nofun⟩
theorem ldMemVx (x : RegIx) : Statement (.ldMemVx x) := ⟨(fields_encXKK (by decide) x _).1, nofun⟩
theorem ldVxMem (x : RegIx) : Statement (.ldVxMem x) := ⟨(fields_encXKK (by decide) x _).1, nofun⟩
theorem unknown (w : Word) : Statement (.unknown w) := by
  refine ⟨fieldOp_toNat w, fun _ h => ?_⟩
  have := (isUnrecognized_iff w).mp h
  simp only [key, Machine.unrecognizedClass, List.mem_cons] at *
  omega

end Sys2Proof.Laws.PrimaryKey
end

