-- ==== Sys2Proof/Tests/Slice0.lean ====
section
/-! SUPPORT. Small tests and the witnesses of the statements' hypotheses. Expected results come from the vectors of
95_test_vectors.md (named in each comment) or from the encodings of 30_encoding.md R76. -/

namespace Sys2Proof.Tests

open Sys2Proof Sys2Proof.Machine

/-! ### Helpers -/

/-- What f reads of the next state, if there is one. -/
def look {α : Type} (f : State → α) : Result → Option α
  | .next s => some (f s)
  | .fault _ => none
  | .refused _ => none

/-- One step of a state with a word placed at pc. -/
def run1 {α : Type} (s : State) (w : Nat) (f : State → α) : Option α := look f (step (s.withFetchWord 16 w))

/-- The state after power-on with two registers set. -/
def regs2 (x : RegIx) (a : Byte) (y : RegIx) (b : Byte) : State := (State.reset.setV y b).setV x a

/-- The state after power-on with I set and bytes from 0x300 on. -/
def atI (i : Word) (bytes : List Byte) : State :=
  { State.reset with I := i, mem := Memory.image State.reset.bg 0x300 bytes }

/-- The state after power-on with other parameters. -/
def withCfg (f : Config → Config) (s : State) : State := { s with cfg := f s.cfg }

/-- The state after power-on waiting for a key in register r, with DT = 5. -/
def waiting (r : RegIx) : State := { State.reset with runState := .awaitingKey r, DT := 5 }

/-- The state after power-on with frames of the given length and a frame pending. -/
def framed (cycles : Nat) (k : Word) : State :=
  { withCfg (fun c => { c with cyclesPerFrame := cycles }) State.reset with pending := [.frameTick k] }

/-! ### WellFormed: ill-formed terms are refused -/

theorem test_wf_refuses_recognized_group0 : (Instr.unknown 0x00E0).wf = false := by decide
theorem test_wf_refuses_recognized_return : (Instr.unknown 0x03EE).wf = false := by decide
theorem test_wf_refuses_one_level_group : (Instr.unknown 0x1234).wf = false := by decide
theorem test_wf_refuses_recognized_group8 : (Instr.unknown 0x812E).wf = false := by decide
theorem test_wf_refuses_recognized_groupE : (Instr.unknown 0xE5A1).wf = false := by decide
theorem test_wf_refuses_recognized_groupF : (Instr.unknown 0xF365).wf = false := by decide
theorem test_wf_admits_unrecognized :
    [0x0123, 0x8008, 0xE000, 0xF0FF].all (fun w => (Instr.unknown w).wf) = true := by decide

/-! ### Decoding: every constructor from a word written out from its pattern in R76 -/

theorem test_decode_cls : decode 0b0000101011100000 = .cls 0b1010 := by decide
theorem test_decode_ret : decode 0b0000001111101110 = .ret 0b0011 := by decide
theorem test_decode_jp : decode 0b0001001101000101 = .jp 0b001101000101 := by decide
theorem test_decode_call : decode 0b0010001000010000 = .call 0b001000010000 := by decide
theorem test_decode_seByte : decode 0b0011001101000010 = .seByte 3 0b01000010 := by decide
theorem test_decode_sneByte : decode 0b0100111110000001 = .sneByte 15 0b10000001 := by decide
theorem test_decode_seReg : decode 0b0101000100100001 = .seReg 1 2 0b0001 := by decide
theorem test_decode_ldByte : decode 0b0110101000101011 = .ldByte 10 0b00101011 := by decide
theorem test_decode_addByte : decode 0b0111000111111111 = .addByte 1 0b11111111 := by decide
theorem test_decode_ldReg : decode 0b1000000100100000 = .ldReg 1 2 := by decide
theorem test_decode_orReg : decode 0b1000000100100001 = .orReg 1 2 := by decide
theorem test_decode_andReg : decode 0b1000000100100010 = .andReg 1 2 := by decide
theorem test_decode_xorReg : decode 0b1000000100100011 = .xorReg 1 2 := by decide
theorem test_decode_addReg : decode 0b1000000100100100 = .addReg 1 2 := by decide
theorem test_decode_subReg : decode 0b1000000100100101 = .subReg 1 2 := by decide
theorem test_decode_shr : decode 0b1000000001010110 = .shr 0 5 := by decide
theorem test_decode_subnReg : decode 0b1000000100100111 = .subnReg 1 2 := by decide
theorem test_decode_shl : decode 0b1000111111101110 = .shl 15 14 := by decide
theorem test_decode_sneReg : decode 0b1001000100101111 = .sneReg 1 2 0b1111 := by decide
theorem test_decode_ldI : decode 0b1010001100000000 = .ldI 0b001100000000 := by decide
theorem test_decode_jpV0 : decode 0b1011111111111111 = .jpV0 0b111111111111 := by decide
theorem test_decode_rnd : decode 0b1100000000011010 = .rnd 0 0b00011010 := by decide
theorem test_decode_drw : decode 0b1101000100100101 = .drw 1 2 0b0101 := by decide
theorem test_decode_skp : decode 0b1110010110011110 = .skp 5 := by decide
theorem test_decode_sknp : decode 0b1110010110100001 = .sknp 5 := by decide
theorem test_decode_ldVxDT : decode 0b1111001100000111 = .ldVxDT 3 := by decide
theorem test_decode_ldVxK : decode 0b1111001000001010 = .ldVxK 2 := by decide
theorem test_decode_ldDTVx : decode 0b1111000100010101 = .ldDTVx 1 := by decide
theorem test_decode_ldSTVx : decode 0b1111000100011000 = .ldSTVx 1 := by decide
theorem test_decode_addI : decode 0b1111001000011110 = .addI 2 := by decide
theorem test_decode_ldF : decode 0b1111000000101001 = .ldF 0 := by decide
theorem test_decode_ldB : decode 0b1111000000110011 = .ldB 0 := by decide
theorem test_decode_ldMemVx : decode 0b1111001001010101 = .ldMemVx 2 := by decide
theorem test_decode_ldVxMem : decode 0b1111001001100101 = .ldVxMem 2 := by decide
theorem test_decode_unknown : decode 0b1111000000011001 = .unknown 0b1111000000011001 := by decide

/-- R52, R70: the byte at the lower address is the high byte; what follows is left over; one byte holds no word. -/
theorem test_decode_bytes : decodeBytes [0x13, 0x45, 0x6A] = .ok (.jp 0x345, [0x6A]) := by rfl
theorem test_decode_bytes_truncated : decodeBytes [0x13] = .error .truncated := by rfl
theorem test_decode_table_word : decodeTableWord 16 0xD125 = some (.drw 1 2 5) := by decide

/-! ### One step of each instruction -/

/-- L2-E1: CLS blanks the plane and emits Clr alone. -/
theorem test_cls : run1 { State.reset with fb := [(0, 0), (63, 31)] } 0x00E0 (fun t => (t.fb, t.trace, t.pc)) =
    some ([], [.dispClear], 0x202) := by decide
/-- L2-A2. -/
theorem test_ret : run1 { State.reset with sp := 1, stack := State.reset.stack.set 0 0x260 } 0x03EE
    (fun t => (t.sp, t.pc, t.stack[0])) = some (0, 0x260, 0x260) := by decide
/-- L2-B6. -/
theorem test_ret_underflow : run1 State.reset 0x00EE (fun t => (t.runState, t.pc, t.trace)) =
    some (.halted ⟨.stackUnderflow, 0x200, 0x00EE⟩, 0x202, [.fault ⟨.stackUnderflow, 0x200, 0x00EE⟩]) := by decide
/-- L2-B1. -/
theorem test_jp : run1 State.reset 0x1345 State.pc = some 0x345 := by decide
/-- L2-B4. -/
theorem test_call : run1 { State.reset with sp := 15 } 0x2300 (fun t => (t.sp, t.pc, t.stack[15])) =
    some (16, 0x300, 0x202) := by decide
/-- L2-B5. -/
theorem test_call_overflow : run1 { State.reset with sp := 16 } 0x2300 (fun t => (t.runState, t.sp, t.pc)) =
    some (.halted ⟨.stackOverflow, 0x200, 0x2300⟩, 16, 0x202) := by decide
/-- L2-B8, L2-B9. -/
theorem test_seByte : run1 (State.reset.setV 3 0x42) 0x3342 State.pc = some 0x204 := by decide
theorem test_seByte_not : run1 (State.reset.setV 3 0x41) 0x3342 State.pc = some 0x202 := by decide
/-- L2-B10, L2-B11. -/
theorem test_sneByte : run1 (State.reset.setV 3 0x41) 0x4342 State.pc = some 0x204 := by decide
theorem test_sneByte_not : run1 (State.reset.setV 3 0x42) 0x4342 State.pc = some 0x202 := by decide
/-- L2-B12. -/
theorem test_seReg : run1 (regs2 1 3 2 3) 0x5121 State.pc = some 0x204 := by decide
/-- L2-C2. -/
theorem test_ldByte : run1 State.reset 0x6F07 (fun t => t.getV VF) = some 0x07 := by decide
/-- L1-4, L2-C4. -/
theorem test_addByte : run1 (State.reset.setV 0 0xFF) 0x7001 (fun t => (t.getV 0, t.getV VF)) = some (0, 0) := by decide
theorem test_addByte_flag_register : run1 (State.reset.setV VF 0xFF) 0x7F01 (fun t => t.getV VF) = some 0 := by decide
/-- L2-C5. -/
theorem test_ldReg : run1 (State.reset.setV 2 0x11) 0x8120 (fun t => t.getV 1) = some 0x11 := by decide
/-- L2-C6. -/
theorem test_orReg : run1 (regs2 1 0x0C 2 0x0A) 0x8121 (fun t => (t.getV 1, t.getV VF)) = some (0x0E, 0) := by decide
theorem test_andReg : run1 (regs2 1 0x0C 2 0x0A) 0x8122 (fun t => (t.getV 1, t.getV VF)) = some (0x08, 0) := by decide
theorem test_xorReg : run1 (regs2 1 0x0C 2 0x0A) 0x8123 (fun t => (t.getV 1, t.getV VF)) = some (0x06, 0) := by decide
/-- L2-C9: the old VF is the operand. L2-C10: x = F keeps the carry. -/
theorem test_addReg : run1 (regs2 0 0x10 VF 1) 0x80F4 (fun t => (t.getV 0, t.getV VF)) = some (0x11, 0) := by decide
theorem test_addReg_flag_register : run1 (regs2 VF 0xFF 1 1) 0x8F14 (fun t => t.getV VF) = some 1 := by decide
/-- L1-5, L2-C12: the flag is strict. -/
theorem test_subReg : run1 (regs2 0 0x10 1 0xAA) 0x8015 (fun t => (t.getV 0, t.getV VF)) = some (0x66, 0) := by decide
theorem test_subReg_equal : run1 (regs2 0 5 1 5) 0x8015 (fun t => (t.getV 0, t.getV VF)) = some (0, 0) := by decide
/-- L2-C18: Vy is not read. -/
theorem test_shr : run1 (regs2 0 1 5 0x77) 0x8056 (fun t => (t.getV 0, t.getV VF)) = some (0, 1) := by decide
/-- L2-C15, L2-C17. -/
theorem test_subnReg : run1 (regs2 1 0x10 2 0xAA) 0x8127 (fun t => (t.getV 1, t.getV VF)) = some (0x9A, 1) := by decide
theorem test_subnReg_borrow : run1 (regs2 1 0xAA 2 0x10) 0x8127 (fun t => (t.getV 1, t.getV VF)) = some (0x66, 0) := by
  decide
/-- L2-C22, L2-C23. -/
theorem test_shl : run1 (State.reset.setV 1 0xB5) 0x810E (fun t => (t.getV 1, t.getV VF)) = some (0x6A, 1) := by decide
theorem test_shl_flag_register : run1 (State.reset.setV VF 0x81) 0x8FFE (fun t => t.getV VF) = some 1 := by decide
/-- L2-B14, L2-B15. -/
theorem test_sneReg : run1 (regs2 1 1 2 0) 0x912F State.pc = some 0x204 := by decide
theorem test_sneReg_not : run1 State.reset 0x9120 State.pc = some 0x202 := by decide
/-- L2-D1. -/
theorem test_ldI : run1 State.reset 0xA300 State.I = some 0x300 := by decide
/-- L2-B17, and L2-B19 with JUMP_V0_MASK = 0xFF. -/
theorem test_jpV0 : run1 (State.reset.setV 0 1) 0xBFFF State.pc = some 0 := by decide
theorem test_jpV0_mask8 : run1 (withCfg (fun c => { c with jumpMask := .mask8 }) (State.reset.setV 0 0x10)) 0xB300
    State.pc = some 0x010 := by decide
/-- L1-10: the draw is 0x17; exactly one is taken. L2-C24: with mask 0 any draw gives 0. -/
theorem test_rnd : run1 { State.reset with rndIn := [0x17, 0x99] } 0xC01A (fun t => (t.getV 0, t.draws, t.rndIn)) =
    some (0x12, 1, [0x99]) := by decide
theorem test_rnd_free : run1 State.reset 0xC000 (fun t => t.getV 0) = some 0 := by
  show some (Config.randomByte 0 &&& 0) = some 0
  simp
/-- L2-E10: W = H = 4; both set bits land on (0, 0). L2-E7: 0xFF2 + 14 = 0x1000. -/
theorem test_drw : run1 (withCfg (fun c => { c with width := 4, height := 4 }) (atI 0x300 [0x88])) 0xD001
    (fun t => (t.fb, t.getV VF, t.trace)) = some ([], 1, [.dispToggle 0 0, .dispToggle 0 0, .dispPresent]) := by decide
theorem test_drw_out_of_range : run1 { State.reset with I := 0xFF2 } 0xD00F (fun t => (t.runState, t.trace)) =
    some (.halted ⟨.memoryOutOfRange, 0x200, 0xD00F⟩, [.fault ⟨.memoryOutOfRange, 0x200, 0xD00F⟩]) := by decide
/-- L2-F1, L2-F4. -/
theorem test_skp : run1 { State.reset.setV 5 0x0A with keys := 0x0400 } 0xE59E State.pc = some 0x204 := by decide
theorem test_skp_no_such_key : run1 { State.reset.setV 0 0x10 with keys := 0xFFFF } 0xE09E State.pc = some 0x202 := by
  decide
/-- L2-F3, L2-F5. -/
theorem test_sknp : run1 (State.reset.setV 5 0x0A) 0xE5A1 State.pc = some 0x204 := by decide
theorem test_sknp_no_such_key : run1 { State.reset.setV 0 0x10 with keys := 0xFFFF } 0xE0A1 State.pc = some 0x204 := by
  decide
/-- L2-F6. -/
theorem test_ldVxDT : run1 { State.reset with DT := 0x3C } 0xF307 (fun t => t.getV 3) = some 0x3C := by decide
/-- L2-F9. -/
theorem test_ldVxK : run1 { State.reset with pc := 0x204 } 0xF20A (fun t => (t.runState, t.pc, t.getV 2)) =
    some (.awaitingKey 2, 0x206, 0) := by decide
/-- L2-F7. -/
theorem test_ldDTVx : run1 (State.reset.setV 1 3) 0xF115 State.DT = some 3 := by decide
/-- L2-F8. -/
theorem test_ldSTVx : run1 (State.reset.setV 1 0x10) 0xF118 (fun t => (t.ST, t.toneOn)) = some (0x10, false) := by decide
/-- L2-D3, L2-D4. -/
theorem test_addI : run1 { State.reset.setV 0 1 with I := 0xFFF } 0xF01E State.I = some 0x1000 := by decide
theorem test_addI_wraps : run1 { State.reset.setV 0 1 with I := 0xFFFF } 0xF01E State.I = some 0 := by decide
/-- L2-D7. -/
theorem test_ldF : run1 (State.reset.setV 0 0xFF) 0xF029 State.I = some 0x4FB := by decide
/-- L2-D8, L2-D12. -/
theorem test_ldB : run1 { State.reset.setV 0 0xFE with I := 0x300 } 0xF033
    (fun t => (t.memRead 0x300, t.memRead 0x301, t.memRead 0x302)) = some (2, 5, 4) := by decide
theorem test_ldB_out_of_range : run1 { State.reset.setV 0 7 with I := 0xFFE } 0xF033
    (fun t => (t.runState, t.memRead 0xFFE, t.pc)) = some (.halted ⟨.memoryOutOfRange, 0x200, 0xF033⟩, 0, 0x202) := by
  decide
/-- L2-D14, and L2-D17 with REG_BLOCK_MODE = NoOp. -/
theorem test_ldMemVx : run1 { regs2 0 0x99 1 0x77 with I := 0x400 } 0xF055
    (fun t => (t.memRead 0x400, t.memRead 0x401, t.I)) = some (0x99, 0, 0x400) := by decide
theorem test_ldMemVx_noOp : run1 (withCfg (fun c => { c with regBlockMode := .noOp }) { State.reset with I := 0xFF1 })
    0xFF55 (fun t => (t.runState, t.pc)) = some (.running, 0x202) := by decide
/-- L2-D18, L2-D20. -/
theorem test_ldVxMem : run1 (atI 0x300 [2, 5, 4, 9]) 0xF265 (fun t => (t.getV 0, t.getV 1, t.getV 2, t.getV 3)) =
    some (2, 5, 4, 0) := by decide
theorem test_ldVxMem_out_of_range : run1 { State.reset with I := 0xFFF } 0xF165 State.runState =
    some (.halted ⟨.memoryOutOfRange, 0x200, 0xF165⟩) := by decide
/-- L2-A6. -/
theorem test_unknown : run1 State.reset 0xF019 (fun t => (t.pc, t.trace)) =
    some (0x202, [.diag .unknownOpcode 0x200 0xF019]) := by decide

/-! ### Fetch, frames and load -/

/-- R230: the numeric codes. -/
theorem test_fault_codes : ([.stackOverflow, .stackUnderflow, .memoryOutOfRange, .fetchOutOfRange, .loadError].map
    FaultCode.number, DiagCode.unknownOpcode.number) = ([1, 2, 3, 4, 5], 16) := by decide
/-- L2-A9. -/
theorem test_fetch_fault : look (fun t => (t.runState, t.pc)) (step { State.reset with pc := 0xFFF }) =
    some (.halted ⟨.fetchOutOfRange, 0xFFF, 0⟩, 0xFFF) := by decide
/-- L2-A13: no cycle in a frame of none. -/
theorem test_empty_frame : look (fun t => (t.DT, t.trace, t.pc, t.frameLeft)) (step { framed 0 0 with DT := 2 }) =
    some (1, [.toneStop], 0x200, 0) := by decide
/-- L2-F14, the frame f + 1. -/
theorem test_tone : look (fun t => (t.ST, t.toneOn, t.frameLeft)) (step { framed 10 0 with ST := 2 }) =
    some (1, true, 10) := by decide
/-- L2-F11, L2-F12. -/
theorem test_wait_resolves : look (fun t => (t.getV 2, t.runState, t.DT))
    (step { waiting 2 with pending := [.frameTick 0x0208] }) = some (3, .running, 5) := by decide
/-- L2-G3. -/
theorem test_load : look (fun t => (t.getV 7, t.memRead 0x200, t.memRead 0x300, t.fb.length, t.toneOn))
    (step { (atI 0x300 [1]).setV 7 7 with fb := [(1, 1)], toneOn := true, pending := [.load [0x12]] }) =
    some (0, 0x12, 0, 1, true) := by decide
/-- L1-8. -/
theorem test_toggle_wraps : ((State.reset.toggle (-1) (-1)).1.fb, (State.reset.toggle (-1) (-1)).2,
    (State.reset.toggle 64 32).1.fb) = ([(63, 31)], false, [(0, 0)]) := by decide
/-- Writing what an unlisted address reads as removes the cell (assumption log 12). -/
theorem test_memory_canonical : ((State.reset.memWrite 0x300 5).memWrite 0x300 0).mem = [] ∧
    (State.reset.memWrite 0 0xF0).mem = [] := by decide

/-! ### Witnesses: states and operands that meet the statements' hypotheses, clause by clause -/

/-- A state that meets the invariant and lists memory, a lit pixel and a used stack entry. -/
def lit : State := { atI 0x300 [0x80] with fb := [(0, 0)], sp := 1, stack := State.reset.stack.set 0 0x1000 }

theorem lit_inv : lit.Inv :=
  ⟨⟨by decide, by decide, toneFreqOpen_pos, by decide⟩, by decide, by decide, by decide, by decide, by decide⟩

theorem lit_mem_wf : Memory.wf lit.bg lit.mem := lit_inv.mem

theorem witness_DecodeInvertsEncode : (Instr.unknown 0x0123).wf = true ∧ (Instr.cls 0xA).wf = true := by decide

theorem witness_EveryOpcodeMapRowDecodes : ∃ r ∈ opcodeMap, (0x0AE0 : Word) &&& r.mask = r.value :=
  ⟨_, List.mem_append_left _ (List.mem_append_left _ List.mem_cons_self), by decide⟩

theorem witness_StepRunsTheDecodedInstruction :
    let s := { lit with pc := 0xFFE }
    s.runState = .running ∧ s.pc.toNat ≤ 0xFFE ∧ s.memRead s.pc.toNat = 0 ∧ s.memRead (s.pc.toNat + 1) = 0 ∧
      s.frameLeft = 0 ∧ s.pending = [] := by decide

theorem witness_StepRunsTheDecodedInstruction_pending :
    let s := { lit with pc := 0x300, pending := [.stepCycle, .frameTick 1] }
    s.runState = .running ∧ s.pc.toNat ≤ 0xFFE ∧ s.memRead s.pc.toNat = 0x80 ∧ s.memRead (s.pc.toNat + 1) = 0 ∧
      s.frameLeft = 0 ∧ s.pending = .stepCycle :: [.frameTick 1] := by decide

theorem witness_StepRunsTheDecodedInstruction_frame :
    let s := { lit with pc := 0, frameLeft := 1 }
    s.runState = .running ∧ s.pc.toNat ≤ 0xFFE ∧ s.memRead s.pc.toNat = 0xF0 ∧ s.memRead (s.pc.toNat + 1) = 0x90 ∧
      s.frameLeft = 0 + 1 := by decide

theorem witness_FetchPastTheEndHalts :
    let s := { lit with pc := 0xFFF }
    s.runState = .running ∧ 0xFFE < s.pc.toNat ∧ s.frameLeft = 0 ∧ s.pending = [] := by decide

theorem witness_CycleIsIdleUnlessRunning :
    (waiting 3).runState ≠ .running ∧ (waiting 3).frameLeft = 0 ∧ (waiting 3).pending = [] := by decide

theorem lit_not_halted : ¬ lit.isHalted := fun ⟨_, h⟩ => by cases h

/-- Both clauses of each fatal condition at the two sides of its bound. -/
theorem witness_FatalConditions_stack :
    fatalOf { lit with sp := 0 } (.ret 0) = some .stackUnderflow ∧ fatalOf lit (.ret 0) = none ∧
      fatalOf { lit with sp := 16 } (.call 0) = some .stackOverflow ∧ fatalOf { lit with sp := 15 } (.call 0) = none := by
  decide

theorem witness_FatalConditions_memory :
    fatalOf { lit with I := 0xFF2 } (.drw 0 0 15) = some .memoryOutOfRange ∧
      fatalOf { lit with I := 0xFF1 } (.drw 0 0 15) = none ∧ fatalOf { lit with I := 0xFFFF } (.drw 0 0 0) = none ∧
      fatalOf { lit with I := 0xFFE } (.ldB 0) = some .memoryOutOfRange ∧
      fatalOf { lit with I := 0xFFD } (.ldB 0) = none ∧
      fatalOf { lit with I := 0xFF1 } (.ldMemVx 15) = some .memoryOutOfRange ∧
      fatalOf { lit with I := 0xFF0 } (.ldVxMem 15) = none := by decide

theorem witness_HaltedCoreKeepsEverythingUntilLoad :
    let s := { lit with runState := .halted ⟨.stackOverflow, 0x200, 0x2200⟩, pending := [.frameTick 0xFFFF] }
    s.runState = .halted ⟨.stackOverflow, 0x200, 0x2200⟩ ∧ s.frameLeft = 0 ∧
      ∀ bytes ts, s.pending ≠ .load bytes :: ts := by
  refine ⟨rfl, rfl, fun bytes ts h => ?_⟩
  cases h

/-- The sound timer on both sides of the decision: 1 and 2. -/
theorem witness_RunningFrame :
    let s := { framed 3 5 with ST := 2 }
    s.runState = .running ∧ s.frameLeft = 0 ∧ s.pending = .frameTick 5 :: [] ∧ 1 < s.ST.toNat ∧
      ¬ 1 < ({ s with ST := 1 } : State).ST.toNat := by decide

/-- A sound timer of 2 plays for the first of two frames. -/
theorem witness_SoundDecays : (State.timerStep^[1] { State.reset with ST := 2 }).toneOn = true ∧
    (State.timerStep^[2] { State.reset with ST := 2 }).toneOn = false := by decide

theorem witness_WaitingFrame :
    let s := { waiting 15 with pending := [.frameTick 0x8000] }
    s.runState = .awaitingKey 15 ∧ s.frameLeft = 0 ∧ s.pending = .frameTick 0x8000 :: [] ∧ (0x8000 : Word) ≠ 0 := by
  decide

theorem witness_WaitingFrame_no_key :
    let s := { waiting 0 with pending := [.frameTick 0] }
    s.runState = .awaitingKey 0 ∧ s.frameLeft = 0 ∧ s.pending = .frameTick 0 :: [] := by decide

/-- A cycle after which the loop goes on, and one after which it ends. -/
theorem witness_FrameLoopEnds :
    look (fun t => (t.runState, t.frameLeft)) (step { State.reset with frameLeft := 2 }) = some (.running, 1) ∧
      look (fun t => (t.runState, t.frameLeft)) (step { State.reset with frameLeft := 2, pc := 0x1000 }) =
        some (.halted ⟨.fetchOutOfRange, 0x1000, 0⟩, 0) := by decide

theorem witness_StepsCarryOutWholeTransactions :
    (framed 4 1).frameLeft = 0 ∧ (framed 4 1).pending = .frameTick 1 :: [] := by decide

/-- The largest image, and one byte more. -/
theorem witness_LoadReinitializesTheMachine :
    let s := { lit with pending := [.load (List.replicate 3584 1)] }
    (List.replicate 3584 (1 : Byte)).length ≤ 3584 ∧ s.frameLeft = 0 ∧
      s.pending = .load (List.replicate 3584 1) :: [] := ⟨by rw [List.length_replicate], rfl, rfl⟩

theorem witness_OversizedLoad :
    let s := { lit with pending := [.load (List.replicate 3585 1)] }
    3584 < (List.replicate 3585 (1 : Byte)).length ∧ s.frameLeft = 0 ∧
      s.pending = .load (List.replicate 3585 1) :: [] := ⟨by rw [List.length_replicate]; decide, rfl, rfl⟩

theorem witness_ReturnPopsIntoPc :
    ({ lit with sp := 16 } : State).sp.val = (15 : Fin 16).val + 1 ∧ lit.sp.val = (0 : Fin 16).val + 1 ∧
      State.reset.sp.val = 0 := by decide

theorem witness_CallPushesTheAdvancedPc :
    State.reset.sp.val = (0 : Fin 16).val ∧ ({ lit with sp := 15 } : State).sp.val = (15 : Fin 16).val ∧
      ({ lit with sp := 16 } : State).sp.val = 16 := by decide

theorem witness_ReturnAfterCallResumes : ({ lit with sp := 15 } : State).sp.val < 16 := by decide

theorem witness_JumpV0MasksTheSum :
    lit.cfg.jumpMask = .mask12 ∧ (withCfg (fun c => { c with jumpMask := .mask8 }) lit).cfg.jumpMask = .mask8 := by
  decide

/-- Both sides of the comparisons of the skips. -/
theorem witness_skips :
    (lit.getV 3).toNat = (0 : Byte).toNat ∧ (lit.getV 3).toNat ≠ (1 : Byte).toNat ∧
      ((lit.setV 1 1).getV 1).toNat ≠ ((lit.setV 1 1).getV 2).toNat := by decide

/-- Both sides of each flag rule: a sum of 255 and 256, equal operands and a difference of one. -/
theorem witness_flags :
    ¬ (0xFE : Byte).toNat + (1 : Byte).toNat > 255 ∧ (0xFF : Byte).toNat + (1 : Byte).toNat > 255 ∧
      ¬ (5 : Byte).toNat > (5 : Byte).toNat ∧ (6 : Byte).toNat > (5 : Byte).toNat ∧ (14 : RegIx) ≠ VF := by decide

theorem witness_RandomTakesOneDraw :
    ({ lit with rndIn := [0x17] } : State).rndIn = 0x17 :: [] ∧ lit.rndIn = [] := by decide

theorem witness_BcdStoresThreeDigits :
    let s := { lit with I := 0xFFD }
    Memory.wf s.bg s.mem ∧ s.I.toNat + 2 ≤ 0xFFF ∧ s.ea 0 - 1 < s.ea 0 := by decide

theorem witness_BcdStoresThreeDigits_out_of_range :
    let s := { lit with I := 0xFFE }
    Memory.wf s.bg s.mem ∧ 0xFFF < s.I.toNat + 2 := by decide

theorem witness_RegisterBlocks :
    let s := { lit with I := 0xFF0 }
    Memory.wf s.bg s.mem ∧ s.cfg.regBlockMode = .copy ∧ s.I.toNat + (15 : RegIx).val ≤ 0xFFF := by decide

theorem witness_RegisterBlocks_out_of_range :
    let s := { lit with I := 0xFF1 }
    Memory.wf s.bg s.mem ∧ s.cfg.regBlockMode = .copy ∧ 0xFFF < s.I.toNat + (15 : RegIx).val := by decide

theorem witness_RegisterBlocks_noOp :
    let s := withCfg (fun c => { c with regBlockMode := .noOp }) lit
    Memory.wf s.bg s.mem ∧ s.cfg.regBlockMode = .noOp := by decide

theorem witness_NextFetchSeesTheStore :
    let s := { lit with I := 0xFFD, pc := 0xFFD }
    Memory.wf s.bg s.mem ∧ s.I = s.pc ∧ s.pc.toNat + 2 ≤ 0xFFF := by decide

/-- A toggled pixel that is lit, and one that is not. -/
theorem witness_ToggleFlipsTheWrappedPixel :
    lit.Inv ∧ ((64 : Int) % lit.cfg.width).toNat = 0 ∧ (0, 0) ∈ lit.fb ∧ (1, 0) ∉ lit.fb :=
  ⟨lit_inv, by decide, by decide, by decide⟩

theorem witness_DrawTogglesTheSprite : lit.Inv ∧ spriteFits 1 lit ∧ spriteFits 0 { lit with I := 0xFFFF } ∧
    spriteFits 15 { lit with I := 0xFF1 } ∧ ¬ spriteFits 15 { lit with I := 0xFF2 } :=
  ⟨lit_inv, .inr (by decide), .inl rfl, .inr (by decide), fun h => by rcases h with h | h <;> revert h <;> decide⟩

/-- L2-E4: the toggle finds (0, 0) lit; without the lit pixel it does not. -/
theorem witness_DrawSetsTheCollisionFlag : lit.Inv ∧ spriteFits 1 lit ∧
    (∃ k, togglesOff (spritePixels 0 0 1 lit) lit.fb k) ∧ ¬ ∃ k, togglesOff (spritePixels 0 0 1 lit) [] k := by
  have h : spritePixels 0 0 1 lit = [(0, 0)] := by decide
  refine ⟨lit_inv, .inr (by decide), ⟨0, (0, 0), by rw [h]; rfl, by rw [h]; simp [litAfter, lit]⟩, ?_⟩
  rintro ⟨k, p, hp, hl⟩
  rw [h] at hp hl
  cases k <;> simp_all [litAfter]

theorem witness_DrawingTwiceRestoresThePlane : lit.Inv ∧ spriteFits 1 lit ∧
    (∃ t, exec (.drw 0 0 1) lit = .next t ∧ t.getV 0 = lit.getV 0) ∧ 8 ≤ lit.cfg.width ∧ 15 ≤ lit.cfg.height :=
  ⟨lit_inv, .inr (by decide), ⟨_, rfl, by decide⟩, by decide, by decide⟩

/-- Key 15 is the last that a value names. -/
theorem witness_KeySkipsTestTheSample :
    let s := { State.reset.setV 5 15 with keys := 0x8000 }
    ((s.getV 5).toNat < 16 ∧ s.keys.getLsbD (s.getV 5).toNat = true) ∧ ¬ ((s.setV 5 16).getV 5).toNat < 16 := by decide

/-- An instruction, the next state of executing it, and a register, an address and parts it may not write. -/
theorem witness_frames : Memory.wf lit.bg lit.mem ∧ fatalOf lit (.ldB 0) = none ∧ (∃ t, exec (.ldB 0) lit = .next t) ∧
    ¬ mayWriteReg (.ldB 0) 0 ∧ ¬ mayStoreTo lit (.ldB 0) 0x303 ∧ mayStoreTo lit (.ldB 0) 0x302 ∧
    Part.pc ∉ mayWritePart (.ldB 0) :=
  ⟨lit_mem_wf, by decide, ⟨_, rfl⟩, fun h => h, fun h => absurd h.2 (by decide), ⟨by decide, by decide⟩, by decide⟩

/-- A block with other parameters than the defaults that can be built. -/
theorem witness_PowerOnMeetsTheInvariant :
    ({ Config.default with width := 4, height := 1, toneFreq := 440, jumpMask := .mask8 } : Config).wf :=
  ⟨by decide, by decide, by decide, by decide⟩

theorem witness_EveryStepKeepsTheInvariant : lit.Inv ∧ ∃ t, step lit = .next t := ⟨lit_inv, _, rfl⟩

theorem witness_NoInstructionReadsToneOrSoundTimer : ∀ x : RegIx, Instr.cls 0 ≠ .ldSTVx x := by decide

end Sys2Proof.Tests
end

section
/-! PROOFS. The invariant of Safety.lean: that power-on meets it and every step keeps it, and what the state holds at
power-on. -/

namespace Sys2Proof.Machine

/-! ### The invariant without its clause on the frame -/

/-- The invariant but for its clause on the frame in progress. A cycle of a frame keeps it by itself, where the frame's
clause may fail until the cycle loop has looked at the run state again (40_fetch_execute.md R114). -/
structure State.DataInv (s : State) : Prop where
  cfg : s.cfg.wf
  mem : Memory.wf s.bg s.mem
  plane : Plane.wf s.cfg.width s.cfg.height s.fb
  pc : s.pc.toNat ≤ 0x1002
  stack : ∀ k : Fin 16, s.stack[k].toNat ≤ 0x1000

theorem State.inv_iff {s : State} : s.Inv ↔ s.DataInv ∧ (s.frameLeft ≠ 0 → s.runState = .running) :=
  ⟨fun ⟨cfg, mem, plane, pc, stack, frame⟩ => ⟨⟨cfg, mem, plane, pc, stack⟩, frame⟩,
    fun ⟨⟨cfg, mem, plane, pc, stack⟩, frame⟩ => ⟨cfg, mem, plane, pc, stack, frame⟩⟩

theorem State.DataInv.inv {s : State} (h : s.DataInv) (hf : s.frameLeft = 0) : s.Inv :=
  State.inv_iff.mpr ⟨h, fun hne => absurd hf hne⟩

/-! ### One rule per operation -/

namespace State.DataInv

variable {s : State}

/-- Only the parameters, memory, the plane, pc and the stack are read by it. -/
theorem congr {t : State} (h : s.DataInv) (hcfg : t.cfg = s.cfg) (hmem : t.mem = s.mem) (hfb : t.fb = s.fb)
    (hpc : t.pc = s.pc) (hstack : t.stack = s.stack) : t.DataInv where
  cfg := by rw [hcfg]; exact h.cfg
  mem := by rw [State.bg, hcfg, hmem]; exact h.mem
  plane := by rw [hcfg, hfb]; exact h.plane
  pc := by rw [hpc]; exact h.pc
  stack := by rw [hstack]; exact h.stack

theorem setV (h : s.DataInv) (x : RegIx) (v : Byte) : (s.setV x v).DataInv := h.congr rfl rfl rfl rfl rfl

theorem setResultThenFlag (h : s.DataInv) (x : RegIx) (v f : Byte) : (s.setResultThenFlag x v f).DataInv :=
  (h.setV x v).setV VF f

theorem emit (h : s.DataInv) (e : Event) : (s.emit e).DataInv := h.congr rfl rfl rfl rfl rfl

theorem raiseFatal (h : s.DataInv) (c : FaultCode) (a w : Word) : (s.raiseFatal c a w).DataInv :=
  h.congr rfl rfl rfl rfl rfl

theorem fatalAt (h : s.DataInv) (c : FaultCode) (w : Word) : (s.fatalAt c w).DataInv := h.raiseFatal c s.ia w

theorem setPc (h : s.DataInv) {a : Word} (ha : a.toNat ≤ 0x1002) : (s.setPc a).DataInv := { h with pc := ha }

/-- A skip moves past one instruction, which the bound on pc leaves room for (41_control_flow.md R120). -/
theorem skipIf (h : s.DataInv) (hpc : s.pc.toNat ≤ 0x1000) (c : Bool) : (s.skipIf c).DataInv := by
  rw [State.skipIf_eq]
  refine h.setPc ?_
  split
  · bv_omega
  · exact h.pc

/-- A pushed return address is a pc that the default advance alone has moved (R123, 10_state.md R25). -/
theorem push (h : s.DataInv) (hpc : s.pc.toNat ≤ 0x1000) (k : Fin 16) :
    State.DataInv { s with stack := s.stack.set k s.pc, sp := k.succ } where
  cfg := h.cfg
  mem := h.mem
  plane := h.plane
  pc := h.pc
  stack j := by
    simp only [Fin.getElem_fin, Vector.getElem_set]
    split
    · exact hpc
    · exact h.stack j

theorem pop (h : s.DataInv) (k : Fin 16) : State.DataInv { s with sp := k.castSucc, pc := s.stack[k] } :=
  { h with pc := (h.stack k).trans (by decide) }

theorem memWrite (h : s.DataInv) {a : Nat} (ha : a < 4096) (v : Byte) : (s.memWrite a v).DataInv :=
  { h with mem := Memory.wf_write h.mem ha }

theorem storeRegs (h : s.DataInv) {base : Nat} {is : List RegIx} (hi : ∀ i ∈ is, base + i.val < 4096) :
    (s.storeRegs base is).DataInv := by
  rw [State.storeRegs_eq]
  exact { h with mem := State.wf_storeRegs h.mem hi }

theorem loadRegs (h : s.DataInv) (base : Nat) (is : List RegIx) : (s.loadRegs base is).DataInv := by
  rw [State.loadRegs_eq]
  exact h.congr rfl rfl rfl rfl rfl

theorem clearPlane (h : s.DataInv) : s.clearPlane.DataInv := { h with plane := ⟨.nil, nofun⟩ }

/-- Every toggled pixel is a sprite's pixel, wrapped into the plane (44_display.md R193). -/
theorem toggleSprite (h : s.DataInv) (xs ys n : Nat) :
    (s.toggleAll (s.spritePoints (s.ea 0) xs ys n)).1.DataInv := by
  rw [State.toggleAll_eq, State.spritePoints_wrapped]
  exact { h with plane := Plane.wf_flipAll h.plane (spritePixels_lt h.cfg xs ys n) }

theorem drawRnd (h : s.DataInv) : s.drawRnd.2.DataInv := by
  rw [(State.drawRnd_eq s).1]
  exact h.congr rfl rfl rfl rfl rfl

end State.DataInv

/-! ### Every instruction keeps it -/

theorem zext16_le (nnn : Addr12) : (zext16 nnn).toNat ≤ 0xFFF := by
  have := nnn.isLt
  simp only [zext16, BitVec.zeroExtend, BitVec.toNat_setWidth]
  omega

/-- Either mask bounds the target to twelve bits (41_control_flow.md R128). -/
theorem jumpV0Target_le (m : JumpMask) (nnn : Addr12) (v : Byte) : (jumpV0Target m nnn v).toNat ≤ 0xFFF := by
  have hmask : (jumpMaskValue m).toNat ≤ 0xFFF := by cases m <;> decide
  rw [jumpV0Target, BitVec.toNat_and]
  exact Nat.and_le_right.trans hmask

/-- An access that passed its check touches no address beyond 0xFFF (20_memory.md R53). -/
theorem State.ea_lt_of_inRange {s : State} {count : Nat} (h : ¬ s.outOfRange count = true) {i : Nat} (hi : i < count) :
    s.ea i < 4096 := by
  rw [State.outOfRange_iff] at h
  unfold State.ea
  omega

/-- pc, which the default advance has just moved from at most 0xFFE (R101, R102), is at most 0x1000 on entry. -/
theorem exec_keeps_dataInv {i : Instr} {s t : State} (h : s.DataInv) (hpc : s.pc.toNat ≤ 0x1000)
    (he : exec i s = .next t) : t.DataInv := by
  cases i
  case cls => cases he; exact h.clearPlane
  case ret =>
    rcases sp_cases s with hs | ⟨k, hk⟩
    · simp only [exec, execRet, popPc?_eq_none.mpr hs] at he; cases he; exact h.fatalAt _ _
    · simp only [exec, execRet, popPc?_eq_some k hk] at he; cases he; exact h.pop k
  case jp nnn => cases he; exact h.setPc ((zext16_le nnn).trans (by decide))
  case call nnn =>
    rcases sp_cases_push s with hs | ⟨k, hk⟩
    · simp only [exec, execCall, pushPc?_eq_none.mpr hs] at he; cases he; exact h.fatalAt _ _
    · simp only [exec, execCall, pushPc?_eq_some k hk] at he; cases he
      exact (h.push hpc k).setPc ((zext16_le nnn).trans (by decide))
  case seByte | sneByte | seReg | sneReg | skp | sknp => cases he; exact h.skipIf hpc _
  case ldByte | addByte | ldReg | orReg | andReg | xorReg | ldVxDT => cases he; exact h.setV _ _
  case addReg | subReg | shr | subnReg | shl => cases he; exact h.setResultThenFlag _ _ _
  case jpV0 nnn => cases he; exact h.setPc ((jumpV0Target_le _ nnn _).trans (by decide))
  case rnd => cases he; exact h.drawRnd.setV _ _
  case drw =>
    simp only [exec, execDrw] at he
    split at he <;> cases he
    · exact h.fatalAt _ _
    · exact ((h.toggleSprite _ _ _).setV _ _).emit _
  case ldI | addI | ldF | ldVxK | ldDTVx | ldSTVx => cases he; exact h.congr rfl rfl rfl rfl rfl
  case ldB =>
    simp only [exec, execLdB] at he
    split at he <;> cases he
    · exact h.fatalAt _ _
    · rename_i hr
      have ha : ∀ i < 3, s.ea i < 4096 := fun i => State.ea_lt_of_inRange hr
      exact ((h.memWrite (ha 0 (by decide)) _).memWrite (ha 1 (by decide)) _).memWrite (ha 2 (by decide)) _
  case ldMemVx x =>
    simp only [exec, execLdMemVx] at he
    split at he
    · cases he; exact h
    · split at he <;> cases he
      · exact h.fatalAt _ _
      · rename_i hr
        refine h.storeRegs fun i hi => ?_
        exact State.ea_lt_of_inRange hr (Nat.lt_succ_of_le ((mem_regsUpTo x i).mp hi))
  case ldVxMem =>
    simp only [exec, execLdVxMem] at he
    split at he
    · cases he; exact h
    · split at he <;> cases he
      · exact h.fatalAt _ _
      · exact h.loadRegs _ _
  case unknown => cases he; exact h.emit _

theorem stepCycle_keeps_dataInv {s t : State} (h : s.DataInv) (hs : stepCycle s = .next t) : t.DataInv := by
  rcases stepCycle_cases hs with ⟨-, rfl⟩ | ⟨-, hpc, he⟩ | ⟨-, -, rfl⟩
  · exact h
  · have hadv : (s.pc + 2).toNat ≤ 0x1000 := by bv_omega
    exact exec_keeps_dataInv (h.setPc (hadv.trans (by decide))) hadv he
  · exact h.raiseFatal _ _ _

/-! ### What the starts of transactions do, and that they keep it -/

/-- A timer step changes the timers, the tone and the trace alone (60_exceptions.md R240, R241). -/
theorem State.timerStep_eq (s : State) :
    s.timerStep = { s with DT := countdown s.DT, ST := countdown s.ST, toneOn := s.timerStep.toneOn,
                           trace := s.timerStep.trace } := by
  unfold State.timerStep State.toneDecision
  split <;> rfl

/-- Resolving the input wait changes the registers and the run state alone (R245). -/
theorem State.awaitResolve_eq (r : RegIx) (s : State) :
    s.awaitResolve r = { s with V := (s.awaitResolve r).V, runState := (s.awaitResolve r).runState } := by
  unfold State.awaitResolve
  split <;> rfl

/-- The start of a frame leaves cycles to run only where the core runs (40_fetch_execute.md R110, R113). -/
theorem State.DataInv.beginFrame {s : State} (h : s.DataInv) (hf : s.frameLeft = 0) (k : Word) :
    (s.beginFrame k).Inv := by
  rcases State.beginFrame_cases k s with ⟨f, -, he⟩ | ⟨r, -, he⟩ | ⟨hr, he⟩ <;> rw [he]
  · exact DataInv.inv (h.congr rfl rfl rfl rfl rfl) hf
  · rw [State.awaitResolve_eq]
    exact DataInv.inv (h.congr rfl rfl rfl rfl rfl) hf
  · rw [State.timerStep_eq]
    exact State.inv_iff.mpr ⟨h.congr rfl rfl rfl rfl rfl, fun _ => hr⟩

/-- The address a program is loaded at and started from (20_memory.md R57) is inside pc's bound. -/
theorem loadAddress_le : (0x200 : Word).toNat ≤ 0x1002 := by decide

/-- A load that fits makes memory of an image that ends by 0xFFF; one that does not keeps it (R272, R273). -/
theorem State.DataInv.load {s : State} (h : s.DataInv) (bytes : List Byte) : (s.load bytes).DataInv := by
  unfold State.load
  split
  · exact h.raiseFatal _ _ _
  · rename_i hlen
    exact {
      cfg := h.cfg
      mem := Memory.wf_image (by unfold maxImage at hlen; omega)
      plane := h.plane
      pc := loadAddress_le
      stack := fun k => by simp }

theorem State.load_frameLeft (s : State) (bytes : List Byte) : (s.load bytes).frameLeft = s.frameLeft := by
  unfold State.load
  split <;> rfl

/-- A transaction begun between frames: only a running frame leaves cycles to run. -/
theorem beginTransaction_gives_inv {x : Transaction} {s t : State} (h : s.DataInv) (hf : s.frameLeft = 0)
    (hb : beginTransaction x s = .next t) : t.Inv := by
  cases x with
  | load bytes => cases hb; exact (h.load bytes).inv ((s.load_frameLeft bytes).trans hf)
  | frameTick k => cases hb; exact h.beginFrame hf k
  | stepCycle =>
    obtain ⟨-, -, hkeep, -⟩ := stepCycle_keeps hb
    exact (stepCycle_keeps_dataInv h hb).inv (hkeep.trans hf)

/-- The end of a frame's cycle brings the frame's clause back, whatever the cycle did (R114). -/
theorem State.DataInv.endCycle {s : State} (h : s.DataInv) : s.endCycle.Inv := by
  refine State.inv_iff.mpr ⟨?_, ?_⟩
  · rw [State.endCycle_eq]
    exact h.congr rfl rfl rfl rfl rfl
  · unfold State.endCycle
    split
    · rename_i hr; exact fun _ => hr
    · exact fun hne => absurd rfl hne
    · exact fun hne => absurd rfl hne

/-! ### Power-on -/

theorem State.powerOn_inv {c : Config} (h : c.wf) : (State.powerOn c).Inv where
  cfg := h
  mem := Memory.wf_nil _
  plane := ⟨.nil, nofun⟩
  pc := loadAddress_le
  stack k := by simp
  frame hne := absurd rfl hne

theorem default_wf : Config.default.wf := ⟨by decide, by decide, toneFreqOpen_pos, by decide⟩

theorem State.memRead_powerOn (c : Config) (a : Nat) : (State.powerOn c).memRead a = background c.font a := rfl

@[simp] theorem background_font (font : Vector Byte 80) (a : Fin 80) : background font a = font[a] := dif_pos a.isLt

theorem background_of_le {font : Vector Byte 80} {a : Nat} (h : 80 ≤ a) : background font a = 0 :=
  dif_neg (by omega)

end Sys2Proof.Machine

open Sys2Proof Sys2Proof.Machine

/-- Settles O58, by the three kinds of step: a cycle of a frame keeps the data's part and its end restores the frame's
clause; a bare cycle and the start of a transaction find no frame in progress. -/
theorem everyStepKeepsTheInvariant : Obligations.EveryStepKeepsTheInvariant := by
  intro s t hinv hstep
  obtain ⟨h, -⟩ := State.inv_iff.mp hinv
  rcases step_cases hstep with ⟨n, u, -, hu, rfl⟩ | ⟨hf, -, hu⟩ | ⟨x, ts, hf, -, hb⟩
  · exact (stepCycle_keeps_dataInv h hu).endCycle
  · obtain ⟨-, -, hkeep, -⟩ := stepCycle_keeps hu
    exact (stepCycle_keeps_dataInv h hu).inv (hkeep.trans hf)
  · have h' : State.DataInv { s with pending := ts } := h.congr rfl rfl rfl rfl rfl
    exact beginTransaction_gives_inv h' hf hb

/-- Settles O21: the fields are those of `State.powerOn`, and memory, which lists nothing, reads as its background. -/
theorem powerOnState : Obligations.PowerOnState := by
  refine ⟨fun c => ⟨_, rfl, rfl, ?regs, rfl, rfl, rfl, ?stack, rfl, rfl, rfl, rfl, rfl, rfl, ?font, ?zero, rfl, rfl⟩,
    rfl⟩
  case regs => intro r; simp [State.getV]
  case stack => intro k; simp
  case font => intro a; rw [State.memRead_powerOn, background_font]
  case zero => intro a ha; rw [State.memRead_powerOn, background_of_le ha]

/-- Settles O22: the table's values are those of `Config.default`, and the open TONE_FREQ is positive. -/
theorem defaultParametersAreLegal : Obligations.DefaultParametersAreLegal :=
  ⟨default_wf, rfl, rfl, rfl, rfl, rfl, rfl, rfl⟩

/-- Settles O57: power-on meets the invariant for legal parameters, and the defaults are legal. -/
theorem powerOnMeetsTheInvariant : Obligations.PowerOnMeetsTheInvariant :=
  ⟨fun _ h => State.powerOn_inv h, State.powerOn_inv default_wf⟩
end

section
/-! PROOFS. What an instruction changes and what it reads: the registers and parts it may write, that it is blind to the
tone level and the sound timer, and what a toggle, a waiting core's frame and a step keep. -/

namespace Sys2Proof.Machine

/-! ### One rule per part: an update of it changes it alone -/

theorem onlyChanges_regs (s : State) (V : Vector Byte 16) : OnlyChanges [.regs] s { s with V := V } := by
  intro p hp; cases p <;> simp_all [Part.Same, State.memRead, State.bg]

theorem onlyChanges_index (s : State) (a : Word) : OnlyChanges [.index] s { s with I := a } := by
  intro p hp; cases p <;> simp_all [Part.Same, State.getV, State.memRead, State.bg]

theorem onlyChanges_pc (s : State) (a : Word) : OnlyChanges [.pc] s { s with pc := a } := by
  intro p hp; cases p <;> simp_all [Part.Same, State.getV, State.memRead, State.bg]

theorem onlyChanges_callStack_pc (s : State) (sp : Fin 17) (stack : Vector Word 16) (a : Word) :
    OnlyChanges [.callStack, .pc] s { s with sp := sp, stack := stack, pc := a } := by
  intro p hp; cases p <;> simp_all [Part.Same, State.getV, State.memRead, State.bg]

theorem onlyChanges_delay (s : State) (v : Byte) : OnlyChanges [.delay] s { s with DT := v } := by
  intro p hp; cases p <;> simp_all [Part.Same, State.getV, State.memRead, State.bg]

theorem onlyChanges_sound (s : State) (v : Byte) : OnlyChanges [.sound] s { s with ST := v } := by
  intro p hp; cases p <;> simp_all [Part.Same, State.getV, State.memRead, State.bg]

theorem onlyChanges_memory (s : State) (m : List Host.Cell) : OnlyChanges [.memory] s { s with mem := m } := by
  intro p hp; cases p <;> simp_all [Part.Same, State.getV]

theorem onlyChanges_runState (s : State) (r : RunState) : OnlyChanges [.runState] s { s with runState := r } := by
  intro p hp; cases p <;> simp_all [Part.Same, State.getV, State.memRead, State.bg]

theorem onlyChanges_plane_trace (s : State) (fb : List Pixel) (es : List Event) :
    OnlyChanges [.plane, .trace] s { s with fb := fb, trace := es } := by
  intro p hp; cases p <;> simp_all [Part.Same, State.getV, State.memRead, State.bg]

theorem onlyChanges_keys_pending (s : State) (k : Word) (ts : List Transaction) :
    OnlyChanges [.keys, .pending] s { s with keys := k, pending := ts } := by
  intro p hp; cases p <;> simp_all [Part.Same, State.getV, State.memRead, State.bg]

theorem onlyChanges_random (s : State) (bs : List Byte) (n : Nat) :
    OnlyChanges [.random] s { s with rndIn := bs, draws := n } := by
  intro p hp; cases p <;> simp_all [Part.Same, State.getV, State.memRead, State.bg]

/-- Two updates one after the other change the parts of both. -/
theorem OnlyChanges.append {ps qs : List Part} {s t u : State} (h : OnlyChanges ps s t) (k : OnlyChanges qs t u) :
    OnlyChanges (ps ++ qs) s u :=
  (h.mono (List.subset_append_left ps qs)).trans (k.mono (List.subset_append_right ps qs))

/-! ### The operations, by the parts they change -/

theorem State.onlyChanges_emit (s : State) (e : Event) : OnlyChanges [.trace] s (s.emit e) := by
  intro p hp; cases p <;> simp_all [Part.Same]

theorem State.onlyChanges_setV (s : State) (x : RegIx) (v : Byte) : OnlyChanges [.regs] s (s.setV x v) :=
  onlyChanges_regs s _

theorem State.onlyChanges_skipIf (s : State) (c : Bool) : OnlyChanges [.pc] s (s.skipIf c) := by
  rw [State.skipIf_eq]
  exact onlyChanges_pc s _

theorem State.onlyChanges_drawRnd (s : State) : OnlyChanges [.random] s s.drawRnd.2 := by
  rw [(State.drawRnd_eq s).1]
  exact onlyChanges_random s _ _

theorem State.onlyChanges_storeRegs (s : State) (base : Nat) (is : List RegIx) :
    OnlyChanges [.memory] s (s.storeRegs base is) := by
  rw [State.storeRegs_eq]
  exact onlyChanges_memory s _

theorem State.onlyChanges_loadRegs (s : State) (base : Nat) (is : List RegIx) :
    OnlyChanges [.regs] s (s.loadRegs base is) := by
  rw [State.loadRegs_eq]
  exact onlyChanges_regs s _

theorem State.onlyChanges_toggle (s : State) (px py : Int) : OnlyChanges [.plane, .trace] s (s.toggle px py).1 :=
  onlyChanges_plane_trace s _ _

theorem State.onlyChanges_toggleAll (s : State) (pts : List (Nat × Nat)) :
    OnlyChanges [.plane, .trace] s (s.toggleAll pts).1 := by
  rw [State.toggleAll_eq]
  exact onlyChanges_plane_trace s _ _

/-! ### Executing an instruction, by whether it meets a fatal condition (60_exceptions.md R230, R231) -/

theorem exists_top_of_ret {s : State} {ign : Nibble} (h : fatalOf s (.ret ign) = none) :
    ∃ k : Fin 16, s.sp.val = k.val + 1 :=
  (sp_cases s).resolve_left fun hs => by simp [fatalOf, hs] at h

theorem exists_free_of_call {s : State} {nnn : Addr12} (h : fatalOf s (.call nnn) = none) :
    ∃ k : Fin 16, s.sp.val = k.val :=
  (sp_cases_push s).resolve_left fun hs => by simp [fatalOf, hs] at h

theorem fatalOf_drw (s : State) (x y : RegIx) (n : Nibble) :
    fatalOf s (.drw x y n) = if s.outOfRange n.toNat = true then some .memoryOutOfRange else none :=
  if_congr (by rw [State.outOfRange_iff]; omega) rfl rfl

theorem fatalOf_ldB (s : State) (x : RegIx) :
    fatalOf s (.ldB x) = if s.outOfRange 3 = true then some .memoryOutOfRange else none :=
  if_congr (by rw [State.outOfRange_iff]; omega) rfl rfl

theorem fatalOf_ldMemVx (s : State) (x : RegIx) :
    fatalOf s (.ldMemVx x) =
      if s.cfg.regBlockMode = .copy ∧ s.outOfRange (x.val + 1) = true then some .memoryOutOfRange else none :=
  if_congr (and_congr_right fun _ => by rw [State.outOfRange_iff]; omega) rfl rfl

theorem fatalOf_ldVxMem (s : State) (x : RegIx) : fatalOf s (.ldVxMem x) = fatalOf s (.ldMemVx x) := rfl

/-- An instruction that meets a fatal condition halts the core with its own address and word, and does nothing else. -/
theorem exec_of_fatal {s : State} {i : Instr} {c : FaultCode} (h : fatalOf s i = some c) :
    exec i s = .next (s.fatalAt c (encode i)) := by
  cases i
  case ret =>
    obtain ⟨hs, rfl⟩ : s.sp.val = 0 ∧ _ = c := by simpa [fatalOf] using h
    simp only [exec, execRet, popPc?_eq_none.mpr hs]
  case call =>
    obtain ⟨hs, rfl⟩ : s.sp.val = 16 ∧ _ = c := by simpa [fatalOf] using h
    simp only [exec, execCall, pushPc?_eq_none.mpr hs]
  case drw =>
    obtain ⟨hr, rfl⟩ : s.outOfRange _ = true ∧ _ = c := by simpa [fatalOf_drw] using h
    simp only [exec, execDrw, hr, if_true]
  case ldB =>
    obtain ⟨hr, rfl⟩ : s.outOfRange 3 = true ∧ _ = c := by simpa [fatalOf_ldB] using h
    simp only [exec, execLdB, hr, if_true]
  case ldMemVx =>
    obtain ⟨⟨hm, hr⟩, rfl⟩ : (_ ∧ s.outOfRange _ = true) ∧ _ = c := by simpa [fatalOf_ldMemVx] using h
    simp only [exec, execLdMemVx, hm, hr, if_true]
  case ldVxMem =>
    obtain ⟨⟨hm, hr⟩, rfl⟩ : (_ ∧ s.outOfRange _ = true) ∧ _ = c := by
      simpa [fatalOf_ldVxMem, fatalOf_ldMemVx] using h
    simp only [exec, execLdVxMem, hm, hr, if_true]
  all_goals cases h

theorem exec_ret {s : State} {ign : Nibble} (k : Fin 16) (h : s.sp.val = k.val + 1) :
    exec (.ret ign) s = .next { s with sp := k.castSucc, pc := s.stack[k] } := by
  simp only [exec, execRet, popPc?_eq_some k h]

theorem exec_call {s : State} {nnn : Addr12} (k : Fin 16) (h : s.sp.val = k.val) :
    exec (.call nnn) s = .next { s with stack := s.stack.set k s.pc, sp := k.succ, pc := zext16 nnn } := by
  simp only [exec, execCall, pushPc?_eq_some k h, State.setPc]

theorem exec_drw {s : State} {x y : RegIx} {n : Nibble} (h : fatalOf s (.drw x y n) = none) :
    exec (.drw x y n) s =
      let r := s.toggleAll (s.spritePoints (s.ea 0) (s.getV x).toNat (s.getV y).toNat n.toNat)
      .next (r.1.setV VF (flagCollision r.2)).present :=
  if_neg (by simpa [fatalOf_drw] using h)

theorem exec_ldB {s : State} {x : RegIx} (h : fatalOf s (.ldB x) = none) :
    exec (.ldB x) s =
      .next (((s.memWrite (s.ea 0) (bcdHundreds (s.getV x))).memWrite (s.ea 1) (bcdTens (s.getV x))).memWrite (s.ea 2)
        (bcdOnes (s.getV x))) :=
  if_neg (by simpa [fatalOf_ldB] using h)

theorem exec_ldMemVx {s : State} {x : RegIx} (h : fatalOf s (.ldMemVx x) = none) :
    exec (.ldMemVx x) s =
      .next (if s.cfg.regBlockMode = .copy then s.storeRegs (s.ea 0) (regsUpTo x) else s) := by
  cases hm : s.cfg.regBlockMode with
  | noOp => simp only [exec, execLdMemVx, hm, reduceCtorEq, if_false]
  | copy =>
    have hr : ¬ s.outOfRange (x.val + 1) = true := by simpa [fatalOf_ldMemVx, hm] using h
    simp only [exec, execLdMemVx, hm, if_neg hr, if_true]

theorem exec_ldVxMem {s : State} {x : RegIx} (h : fatalOf s (.ldVxMem x) = none) :
    exec (.ldVxMem x) s =
      .next (if s.cfg.regBlockMode = .copy then s.loadRegs (s.ea 0) (regsUpTo x) else s) := by
  cases hm : s.cfg.regBlockMode with
  | noOp => simp only [exec, execLdVxMem, hm, reduceCtorEq, if_false]
  | copy =>
    have hr : ¬ s.outOfRange (x.val + 1) = true := by simpa [fatalOf_ldVxMem, fatalOf_ldMemVx, hm] using h
    simp only [exec, execLdVxMem, hm, if_neg hr, if_true]

/-! ### The parts an instruction writes -/

/-- The parts an instruction may write where it meets no fatal condition, registers and memory among them
(10_state.md R22, 20_memory.md R60, and `mayWritePart`). -/
def writtenParts (i : Instr) : List Part :=
  match i with
  | .ldByte _ _ | .addByte _ _ | .ldReg _ _ | .orReg _ _ | .andReg _ _ | .xorReg _ _ | .addReg _ _ | .subReg _ _
  | .shr _ _ | .subnReg _ _ | .shl _ _ | .ldVxDT _ | .ldVxMem _ | .rnd _ _ | .drw _ _ _ => .regs :: mayWritePart i
  | .ldB _ | .ldMemVx _ => .memory :: mayWritePart i
  | .cls _ | .ret _ | .jp _ | .call _ | .seByte _ _ | .sneByte _ _ | .seReg _ _ _ | .sneReg _ _ _ | .ldI _ | .jpV0 _
  | .skp _ | .sknp _ | .ldVxK _ | .ldDTVx _ | .ldSTVx _ | .addI _ | .ldF _ | .unknown _ => mayWritePart i

theorem writtenParts_subset (i : Instr) : writtenParts i ⊆ .regs :: .memory :: mayWritePart i := by
  cases i <;> simp [writtenParts, mayWritePart]

theorem exec_onlyChanges {i : Instr} {s t : State} (hf : fatalOf s i = none) (he : exec i s = .next t) :
    OnlyChanges (writtenParts i) s t := by
  cases i
  case cls => cases he; exact onlyChanges_plane_trace s _ _
  case ret =>
    obtain ⟨k, hk⟩ := exists_top_of_ret hf
    rw [exec_ret k hk] at he; cases he
    exact onlyChanges_callStack_pc s _ _ _
  case call =>
    obtain ⟨k, hk⟩ := exists_free_of_call hf
    rw [exec_call k hk] at he; cases he
    exact onlyChanges_callStack_pc s _ _ _
  case jp | jpV0 => cases he; exact onlyChanges_pc s _
  case seByte | sneByte | seReg | sneReg | skp | sknp => cases he; exact s.onlyChanges_skipIf _
  case ldByte | addByte | ldReg | orReg | andReg | xorReg | addReg | subReg | shr | subnReg | shl | ldVxDT =>
    cases he; exact onlyChanges_regs s _
  case ldI | addI | ldF => cases he; exact onlyChanges_index s _
  case rnd =>
    cases he
    exact (s.onlyChanges_drawRnd.append (State.onlyChanges_setV _ _ _)).mono (by simp [writtenParts, mayWritePart])
  case drw =>
    rw [exec_drw hf] at he; cases he
    exact (((s.onlyChanges_toggleAll _).append (State.onlyChanges_setV _ VF _)).append
      (State.onlyChanges_emit _ .dispPresent)).mono (by simp [writtenParts, mayWritePart])
  case ldVxK => cases he; exact onlyChanges_runState s _
  case ldDTVx => cases he; exact onlyChanges_delay s _
  case ldSTVx => cases he; exact onlyChanges_sound s _
  case ldB => rw [exec_ldB hf] at he; cases he; exact onlyChanges_memory s _
  case ldMemVx =>
    rw [exec_ldMemVx hf] at he; cases he
    split
    · exact s.onlyChanges_storeRegs _ _
    · exact OnlyChanges.refl _ s
  case ldVxMem =>
    rw [exec_ldVxMem hf] at he; cases he
    split
    · exact s.onlyChanges_loadRegs _ _
    · exact OnlyChanges.refl _ s
  case unknown => cases he; exact s.onlyChanges_emit _

/-! ### The registers an instruction writes -/

theorem State.getV_drawRnd (s : State) (r : RegIx) : s.drawRnd.2.getV r = s.getV r :=
  s.onlyChanges_drawRnd .regs (by decide) r

theorem State.getV_toggleAll (s : State) (pts : List (Nat × Nat)) (r : RegIx) :
    (s.toggleAll pts).1.getV r = s.getV r :=
  s.onlyChanges_toggleAll pts .regs (by decide) r

/-- Where the parts an instruction may write hold no register, it changes none; the others write Vx, VF or V0 to Vx. -/
theorem exec_keepsRegs {i : Instr} {s t : State} (hf : fatalOf s i = none) (he : exec i s = .next t) {r : RegIx}
    (hr : ¬ mayWriteReg i r) : t.getV r = s.getV r := by
  have hkeep := exec_onlyChanges hf he .regs
  cases i
  case ldByte | addByte | ldReg | orReg | andReg | xorReg | ldVxDT =>
    cases he; exact (State.getV_setV s _ r _).trans (if_neg hr)
  case addReg | subReg | shr | subnReg | shl =>
    obtain ⟨hx, hF⟩ := not_or.mp hr
    cases he; exact (State.getV_setResultThenFlag s _ r _ _).trans ((if_neg hF).trans (if_neg hx))
  case rnd => cases he; exact ((State.getV_setV _ _ r _).trans (if_neg hr)).trans (s.getV_drawRnd r)
  case drw =>
    rw [exec_drw hf] at he; cases he
    exact ((State.getV_setV _ _ r _).trans (if_neg hr)).trans (s.getV_toggleAll _ r)
  case ldVxMem x =>
    rw [exec_ldVxMem hf] at he; cases he
    split
    · rw [State.getV_loadRegs, if_neg (mt (mem_regsUpTo x r).mp hr)]
    · rfl
  all_goals exact hkeep (by simp [writtenParts, mayWritePart]) r

/-! ### The tone level and the sound timer are not read -/

/-- The state with another tone level and another sound timer, each where one is given. -/
def State.withSound (b : Option Bool) (v : Option Byte) (s : State) : State :=
  { s with toneOn := b.getD s.toneOn, ST := v.getD s.ST }

section
variable (b : Option Bool) (v : Option Byte) (s : State)

theorem fatalOf_withSound (i : Instr) : fatalOf (s.withSound b v) i = fatalOf s i := by cases i <;> rfl

theorem State.skipIf_withSound (c : Bool) : (s.withSound b v).skipIf c = (s.skipIf c).withSound b v := by
  cases c <;> rfl

theorem State.storeRegs_withSound (base : Nat) (is : List RegIx) :
    (s.withSound b v).storeRegs base is = (s.storeRegs base is).withSound b v :=
  List.foldl_hom (State.withSound b v) fun _ _ => rfl

theorem State.loadRegs_withSound (base : Nat) (is : List RegIx) :
    (s.withSound b v).loadRegs base is = (s.loadRegs base is).withSound b v :=
  List.foldl_hom (State.withSound b v) fun _ _ => rfl

theorem State.toggleAll_withSound (pts : List (Nat × Nat)) :
    (s.withSound b v).toggleAll pts = ((s.toggleAll pts).1.withSound b v, (s.toggleAll pts).2) := by
  simp only [State.toggleAll_eq]; rfl

theorem State.drawRnd_withSound : (s.withSound b v).drawRnd = (s.drawRnd.1, s.drawRnd.2.withSound b v) := by
  cases h : s.rndIn <;> simp [State.drawRnd, State.withSound, h]

/-- Executing an instruction commutes with replacing the tone level and the sound timer; LD ST, Vx, which overwrites the
sound timer, with replacing the tone level (90_conflicts.md C4). -/
theorem exec_withSound (i : Instr) (hv : v = none ∨ ∀ x, i ≠ .ldSTVx x) :
    exec i (s.withSound b v) = mapNext (State.withSound b v) (exec i s) := by
  cases hf : fatalOf s i with
  | some c => rw [exec_of_fatal hf, exec_of_fatal ((fatalOf_withSound b v s i).trans hf)]; rfl
  | none =>
    have hf' := (fatalOf_withSound b v s i).trans hf
    cases i
    case ret =>
      obtain ⟨k, hk⟩ := exists_top_of_ret hf
      rw [exec_ret k hk, exec_ret (s := s.withSound b v) k hk]; rfl
    case call =>
      obtain ⟨k, hk⟩ := exists_free_of_call hf
      rw [exec_call k hk, exec_call (s := s.withSound b v) k hk]; rfl
    case drw => rw [exec_drw hf, exec_drw hf', State.toggleAll_withSound]; rfl
    case ldB => rw [exec_ldB hf, exec_ldB hf']; rfl
    case ldMemVx =>
      rw [exec_ldMemVx hf, exec_ldMemVx hf', State.storeRegs_withSound, mapNext, apply_ite (State.withSound b v)]; rfl
    case ldVxMem =>
      rw [exec_ldVxMem hf, exec_ldVxMem hf', State.loadRegs_withSound, mapNext, apply_ite (State.withSound b v)]; rfl
    case rnd => simp only [exec, execRnd, State.drawRnd_withSound]; rfl
    case seByte | sneByte | seReg | sneReg | skp | sknp => exact congrArg _ (State.skipIf_withSound b v s _)
    case ldSTVx x =>
      obtain rfl : v = none := hv.resolve_right fun h => h x rfl
      rfl
    all_goals rfl

end

/-! ### The parameters and the trace -/

theorem State.load_keeps (s : State) (bytes : List Byte) :
    (s.load bytes).cfg = s.cfg ∧ s.trace <+: (s.load bytes).trace := by
  unfold State.load
  split
  · simp
  · exact ⟨rfl, List.prefix_rfl⟩

theorem State.timerStep_keeps (s : State) : s.timerStep.cfg = s.cfg ∧ s.trace <+: s.timerStep.trace := by
  unfold State.timerStep State.toneDecision
  split <;> exact ⟨rfl, List.prefix_append _ _⟩

theorem State.beginFrame_keeps (k : Word) (s : State) :
    (s.beginFrame k).cfg = s.cfg ∧ s.trace <+: (s.beginFrame k).trace := by
  rcases State.beginFrame_cases k s with ⟨_, -, he⟩ | ⟨_, -, he⟩ | ⟨-, he⟩ <;> rw [he]
  · exact ⟨rfl, List.prefix_rfl⟩
  · rw [State.awaitResolve_eq]
    exact ⟨rfl, List.prefix_rfl⟩
  · exact State.timerStep_keeps { s with keys := k }

theorem beginTransaction_keeps {x : Transaction} {s t : State} (h : beginTransaction x s = .next t) :
    t.cfg = s.cfg ∧ s.trace <+: t.trace := by
  cases x with
  | load bytes => cases h; exact s.load_keeps bytes
  | frameTick k => cases h; exact s.beginFrame_keeps k
  | stepCycle =>
    obtain ⟨hcfg, -, -, htrace⟩ := stepCycle_keeps h
    exact ⟨hcfg, htrace⟩

/-! ### A frame of a waiting core -/

theorem step_of_pending {s : State} {x : Transaction} {ts : List Transaction} (hf : s.frameLeft = 0)
    (hp : s.pending = x :: ts) : step s = beginTransaction x { s with pending := ts } := by
  simp only [step, advance, hf, hp]

theorem step_of_waitingFrame {s : State} {r : RegIx} {k : Word} {ts : List Transaction}
    (hr : s.runState = .awaitingKey r) (hf : s.frameLeft = 0) (hp : s.pending = .frameTick k :: ts) :
    step s = .next (State.awaitResolve r { s with keys := k, pending := ts }) := by
  rw [step_of_pending hf hp]
  simp only [beginTransaction, State.beginFrame, hr]

/-- The wait resolves to the lowest pressed key, or the state stays (60_exceptions.md R245). -/
theorem State.awaitResolve_cases (r : RegIx) (s : State) :
    (s.keys = 0 ∧ s.awaitResolve r = s) ∨
    (∃ n, lowestKey s.keys = some n ∧
      s.awaitResolve r = { s.setV r (BitVec.ofNat 8 n) with runState := .running }) := by
  unfold State.awaitResolve
  cases h : lowestKey s.keys with
  | none => exact .inl ⟨lowestKey_eq_none.mp h, rfl⟩
  | some n => exact .inr ⟨n, rfl, rfl⟩

/-! ### The wrapped pixel -/

theorem Plane.wrap_cast {w h : Nat} (hw : 0 < w) (hh : 0 < h) (px py : Int) :
    ((Plane.wrap w h px py).1 : Int) = px % w ∧ ((Plane.wrap w h px py).2 : Int) = py % h :=
  ⟨Int.toNat_of_nonneg (Int.emod_nonneg _ (by omega)), Int.toNat_of_nonneg (Int.emod_nonneg _ (by omega))⟩

end Sys2Proof.Machine

open Sys2Proof Sys2Proof.Machine

/-- Settles O16: the frame's start samples the keys and resolves the wait by the sample, which has a lowest pressed key
exactly where it is not 0. -/
theorem waitingFrameResolvesToLowestKey : Obligations.WaitingFrameResolvesToLowestKey := by
  intro s r k ts hrun hframe hpend
  have hsample := onlyChanges_keys_pending s k ts
  refine ⟨_, step_of_waitingFrame hrun hframe hpend, ?_⟩
  rcases State.awaitResolve_cases r { s with keys := k, pending := ts } with ⟨hk, he⟩ | ⟨n, hn, he⟩ <;> rw [he]
  · exact ⟨rfl, rfl, fun _ => hsample, fun hne => absurd hk hne⟩
  · obtain ⟨hlt, hset, hmin⟩ := lowestKey_eq_some hn
    refine ⟨rfl, rfl, fun hk => ?_, fun _ => ⟨?_, fun q hq => ?_, rfl, n, hlt, hset, hmin, ?_⟩⟩
    · rw [lowestKey_eq_none.mpr hk] at hn; cases hn
    · exact (hsample.append (State.onlyChanges_setV _ r _)).append (onlyChanges_runState _ .running)
    · exact (State.getV_setV _ r q _).trans (if_neg (mt List.mem_singleton.mpr hq))
    · calc _ = (BitVec.ofNat 8 n).toNat := congrArg _ (State.getV_setV_same _ r _)
        _ = n := by rw [BitVec.toNat_ofNat]; omega

/-- Settles O45: a flip changes its own pixel alone, and the pixel is the coordinates' moduli. -/
theorem toggleFlipsTheWrappedPixel : Obligations.ToggleFlipsTheWrappedPixel := by
  intro s px py hinv
  obtain ⟨hw, hh, -⟩ := hinv.cfg
  obtain ⟨hx, hy⟩ := Plane.wrap_cast hw hh px py
  obtain ⟨hxlt, hylt⟩ := Plane.wrap_lt hw hh px py
  refine ⟨_, _, hx, hy, hxlt, hylt, s.onlyChanges_toggle px py, fun p => ?_, rfl, Plane.lit_iff s.fb _⟩
  rw [show (s.toggle px py).1.fb = Plane.flip _ s.fb from rfl, Plane.mem_flip hinv.plane.1]
  split
  · rename_i hp; rw [hp]
  · rfl

/-- Settles O52: a fatal condition keeps every register, and without one the rule of R22 holds. -/
theorem onlyNamedWritersChangeRegisters : Obligations.OnlyNamedWritersChangeRegisters := by
  intro i s t he r hr
  cases hf : fatalOf s i with
  | none => exact exec_keepsRegs hf he hr
  | some c => rw [exec_of_fatal hf] at he; cases he; exact State.getV_fatalAt s c _ r

/-- Settles O54: beside registers and memory, the parts an instruction writes are those its rule gives it. -/
theorem onlyNamedWritersChangeOtherParts : Obligations.OnlyNamedWritersChangeOtherParts := by
  intro i s t hf he p hp hregs hmem
  refine (exec_onlyChanges hf he).mono (writtenParts_subset i) p ?_
  simp only [List.mem_cons, not_or]
  exact ⟨hregs, hmem, hp⟩

/-- Settles O55, by the three kinds of step. -/
theorem parametersStayAndTheTraceOnlyGrows : Obligations.ParametersStayAndTheTraceOnlyGrows := by
  intro s t h
  rcases step_cases h with ⟨n, u, -, hu, rfl⟩ | ⟨-, -, hu⟩ | ⟨x, ts, -, -, hb⟩
  · obtain ⟨hcfg, -, -, htrace⟩ := stepCycle_keeps hu
    rw [State.endCycle_eq]
    exact ⟨hcfg, htrace⟩
  · obtain ⟨hcfg, -, -, htrace⟩ := stepCycle_keeps hu
    exact ⟨hcfg, htrace⟩
  · exact beginTransaction_keeps (s := { s with pending := ts }) hb

/-- Settles O56: the tone level and the sound timer replaced one at a time; LD ST, Vx overwrites the sound timer. -/
theorem noInstructionReadsToneOrSoundTimer : Obligations.NoInstructionReadsToneOrSoundTimer := by
  intro i s b v
  refine ⟨exec_withSound (some b) none s i (.inl rfl), fun hi => exec_withSound none (some v) s i (.inr hi), ?_⟩
  rintro x rfl
  rfl
end

section
/-! PROOFS. Memory: a read after a write, the bytes an instruction stores, and that the next fetch sees them. -/

namespace Sys2Proof.Machine

/-! ### The addresses and digits of LD B -/

/-- LD B meets no fatal condition where its third byte is inside memory (20_memory.md R53). -/
theorem fatalOf_ldB_eq_none {s : State} (x : RegIx) (h : s.I.toNat + 2 ≤ 0xFFF) : fatalOf s (.ldB x) = none := by
  rw [fatalOf_ldB, if_neg]
  rw [State.outOfRange_iff]
  omega

theorem bcdHundreds_toNat (a : Byte) : (bcdHundreds a).toNat = a.toNat / 100 := by
  rw [bcdHundreds, BitVec.toNat_ofNat]
  omega

theorem bcdTens_toNat (a : Byte) : (bcdTens a).toNat = a.toNat / 10 % 10 := by
  rw [bcdTens, BitVec.toNat_ofNat]
  omega

theorem bigEndian_toNat (hi lo : Byte) : (bigEndian hi lo).toNat = hi.toNat * 256 + lo.toNat := by
  rw [bigEndian, BitVec.toNat_append, ← Nat.shiftLeft_add_eq_or_of_lt lo.isLt, Nat.shiftLeft_eq]

/-- Memory after LD B that meets no fatal condition (43_index_memory.md R174). -/
theorem memRead_of_exec_ldB {s t : State} {x : RegIx} (h : Memory.Rising s.mem) (hf : fatalOf s (.ldB x) = none)
    (he : exec (.ldB x) s = .next t) (a : Nat) :
    t.memRead a =
      if a = s.ea 2 then bcdOnes (s.getV x)
      else if a = s.ea 1 then bcdTens (s.getV x)
      else if a = s.ea 0 then bcdHundreds (s.getV x)
      else s.memRead a := by
  rw [exec_ldB hf] at he; cases he
  rw [State.memRead_memWrite (Memory.rising_write (Memory.rising_write h)),
    State.memRead_memWrite (Memory.rising_write h), State.memRead_memWrite h]

/-! ### The bytes an instruction stores to -/

/-- Only LD B and LD [I], Vx write memory; each writes from I on and no byte beyond its last (20_memory.md R60). -/
theorem exec_keepsMemory {i : Instr} {s t : State} (h : Memory.Rising s.mem) (hf : fatalOf s i = none)
    (he : exec i s = .next t) {a : Nat} (ha : ¬ mayStoreTo s i a) : t.memRead a = s.memRead a := by
  have hkeep := exec_onlyChanges hf he .memory
  cases i
  case ldB x =>
    have hne : ∀ k ≤ 2, a ≠ s.ea k := fun k hk hak => by
      simp only [mayStoreTo, State.ea] at ha hak
      omega
    rw [memRead_of_exec_ldB h hf he, if_neg (hne 2 (by decide)), if_neg (hne 1 (by decide)),
      if_neg (hne 0 (by decide))]
  case ldMemVx x =>
    rw [exec_ldMemVx hf] at he; cases he
    split
    · rename_i hcopy
      refine State.memRead_storeRegs_off h fun r hr hra => ha ⟨hcopy, ?_⟩
      have hrx : r.val ≤ x.val := (mem_regsUpTo x r).mp hr
      unfold State.ea at hra ⊢
      omega
    · rfl
  all_goals exact hkeep (by simp [writtenParts, mayWritePart]) a

end Sys2Proof.Machine

open Sys2Proof Sys2Proof.Machine

/-- Settles O42: of the canonical form, the rule of a read after a write needs only that the addresses rise. -/
theorem readReturnsTheMostRecentWrite : Obligations.ReadReturnsTheMostRecentWrite :=
  fun _ a b v h => State.memRead_memWrite h.1 a b v

/-- Settles O43: with I at pc, the two bytes that the fetch reads are the first two of the three that LD B stored. -/
theorem nextFetchSeesTheStore : Obligations.NextFetchSeesTheStore := by
  intro x s hmem hI hpc
  have hf : fatalOf s (.ldB x) = none := fatalOf_ldB_eq_none x (hI ▸ hpc)
  obtain ⟨t, he, hpcs⟩ : ∃ t, exec (.ldB x) s = .next t ∧ t.pc = s.pc := ⟨_, exec_ldB hf, rfl⟩
  have hread := memRead_of_exec_ldB hmem.1 hf he
  have hhi : t.memRead s.pc.toNat = bcdHundreds (s.getV x) := by simp [hread, State.ea, hI]
  have hlo : t.memRead (s.pc.toNat + 1) = bcdTens (s.getV x) := by simp [hread, State.ea, hI]
  refine ⟨t, he, hpcs, ?_⟩
  rw [State.fetchWord, hpcs, hhi, hlo, bigEndian_toNat, bcdHundreds_toNat, bcdTens_toNat]

/-- Settles O53: a fatal condition keeps memory, and without one only the two stores write it. -/
theorem onlyStoresChangeMemory : Obligations.OnlyStoresChangeMemory := by
  intro i s t hmem he a ha
  cases hf : fatalOf s i with
  | none => exact exec_keepsMemory hmem.1 hf he ha
  | some c => rw [exec_of_fatal hf] at he; cases he; exact State.memRead_fatalAt s c _ a
end

section
/-! PROOFS. Encoding (30_encoding.md R71 to R79): a masked word as a number, the rows a word matches, and that decoding
and encoding invert each other; and that every instruction and every step answers a next state. -/

namespace Sys2Proof

/-! ### A masked word as a number -/

/-- The masks of R76 keep the top digit of a word and, below it, the lowest k bits. -/
theorem toNat_and_mask (w : Word) {m : Word} {k : Nat} (htop : m.toNat / 2 ^ 12 = 2 ^ 4 - 1)
    (hlow : m.toNat % 2 ^ 12 = 2 ^ k - 1) :
    (w &&& m).toNat = w.toNat / 2 ^ 12 * 2 ^ 12 + w.toNat % 2 ^ 12 % 2 ^ k := by
  have := w.isLt
  have htop' : (w &&& m).toNat / 2 ^ 12 = w.toNat / 2 ^ 12 := by
    rw [BitVec.toNat_and, Nat.and_div_two_pow, htop, Nat.and_two_pow_sub_one_eq_mod]; omega
  have hlow' : (w &&& m).toNat % 2 ^ 12 = w.toNat % 2 ^ 12 % 2 ^ k := by
    rw [BitVec.toNat_and, Nat.and_mod_two_pow, hlow, Nat.and_two_pow_sub_one_eq_mod]
  rw [← Nat.div_add_mod' (w &&& m).toNat (2 ^ 12), htop', hlow']

theorem and_F000_eq_iff {w v : Word} (hv : v.toNat % 0x1000 = 0) :
    w &&& 0xF000#16 = v ↔ (fieldOp w).toNat = v.toNat / 0x1000 := by
  rw [← BitVec.toNat_inj, toNat_and_mask w (k := 0) (by decide) (by decide), fieldOp_toNat]; omega

theorem and_F00F_eq_iff {w v : Word} (hv : v.toNat / 0x10 % 0x100 = 0) :
    w &&& 0xF00F#16 = v ↔ (fieldOp w).toNat = v.toNat / 0x1000 ∧ (fieldN w).toNat = v.toNat % 0x10 := by
  rw [← BitVec.toNat_inj, toNat_and_mask w (k := 4) (by decide) (by decide), fieldOp_toNat, fieldN_toNat]; omega

theorem and_F0FF_eq_iff {w v : Word} (hv : v.toNat / 0x100 % 0x10 = 0) :
    w &&& 0xF0FF#16 = v ↔ (fieldOp w).toNat = v.toNat / 0x1000 ∧ (fieldKK w).toNat = v.toNat % 0x100 := by
  rw [← BitVec.toNat_inj, toNat_and_mask w (k := 8) (by decide) (by decide), fieldOp_toNat, fieldKK_toNat]; omega

/-! ### A word is put together again from its fields -/

theorem encNNN_fieldNNN {w : Word} {op : Nat} (hop : (fieldOp w).toNat = op) : encNNN op (fieldNNN w) = w := by
  subst hop
  apply BitVec.eq_of_toNat_eq
  rw [encNNN_toNat (fieldOp w).isLt, fieldOp_toNat, fieldNNN_toNat]; omega

theorem encXKK_fieldX {w : Word} {op : Nat} {kk : Byte} (hop : (fieldOp w).toNat = op)
    (hkk : (fieldKK w).toNat = kk.toNat) : encXKK op (fieldX w) kk = w := by
  subst hop
  apply BitVec.eq_of_toNat_eq
  rw [encXKK_toNat (fieldOp w).isLt (fieldX w).isLt, ← hkk, fieldOp_toNat, fieldX_val, fieldKK_toNat]; omega

theorem encXYN_fieldX_fieldY {w : Word} {op : Nat} {n : Nibble} (hop : (fieldOp w).toNat = op)
    (hn : (fieldN w).toNat = n.toNat) : encXYN op (fieldX w) (fieldY w) n = w := by
  subst hop
  apply BitVec.eq_of_toNat_eq
  rw [encXYN_toNat (fieldOp w).isLt, ← hn, fieldOp_toNat, fieldX_val, fieldY_val, fieldN_toNat]; omega

/-! ### The decoder on the unrecognized class and on encoded words -/

/-- Each clause of R77 names one two-level group and rules out every key of it. -/
theorem decode_of_unrecognizedClass {w : Word} (h : Machine.unrecognizedClass w.toNat) : decode w = .unknown w := by
  simp only [Machine.unrecognizedClass, ← fieldOp_toNat, ← fieldKK_toNat, ← fieldN_toNat] at h
  rcases h with ⟨hop, h⟩ | ⟨hop, h⟩ | ⟨hop, h⟩ | ⟨hop, h⟩ <;> simp only [decode, hop]
  · unfold decodeGroup0; split <;> simp_all
  · unfold decodeGroup8; split <;> simp_all
  · unfold decodeGroupE; split <;> simp_all
  · unfold decodeGroupF; split <;> simp_all

/-- The encoder puts each operand where the decoder reads it, by the form of the instruction's pattern. -/
theorem decode_encode {i : Instr} (h : i.wf = true) : decode (encode i) = i := by
  cases i
  case cls | ret => simp [encode, decode, decodeGroup0, fields_encXKK_ign]
  case jp | call | ldI | jpV0 => simp [encode, decode, fields_encNNN]
  case seByte | sneByte | ldByte | addByte | rnd => simp [encode, decode, fields_encXKK]
  case seReg | sneReg | drw => simp [encode, decode, fields_encXYN]
  case ldReg | orReg | andReg | xorReg | addReg | subReg | shr | subnReg | shl =>
    simp [encode, decode, decodeGroup8, fields_encXYN]
  case skp | sknp => simp [encode, decode, decodeGroupE, fields_encXKK]
  case ldVxDT | ldVxK | ldDTVx | ldSTVx | addI | ldF | ldB | ldMemVx | ldVxMem =>
    simp [encode, decode, decodeGroupF, fields_encXKK]
  case unknown w => exact decode_of_unrecognizedClass ((isUnrecognized_iff w).mp h)

theorem Instr.wf_of_ne_unknown {i : Instr} (h : ∀ w, i ≠ .unknown w) : i.wf = true := by
  cases i
  case unknown w => exact absurd rfl (h w)
  all_goals rfl

end Sys2Proof

namespace Sys2Proof.Machine

/-! ### The words that match a row of the opcode map -/

theorem exists_oneLevelRow_iff (w : Word) : (∃ r ∈ oneLevelRows, w &&& r.mask = r.value) ↔
    (fieldOp w).toNat ∈ [0x1, 0x2, 0x3, 0x4, 0x5, 0x6, 0x7, 0x9, 0xA, 0xB, 0xC, 0xD] := by
  simp [oneLevelRows, and_F000_eq_iff]

theorem exists_nibbleKeyedRow_iff (w : Word) : (∃ r ∈ nibbleKeyedRows, w &&& r.mask = r.value) ↔
    (fieldOp w).toNat = 0x8 ∧ (fieldN w).toNat ∈ [0x0, 0x1, 0x2, 0x3, 0x4, 0x5, 0x6, 0x7, 0xE] := by
  simp [nibbleKeyedRows, and_F00F_eq_iff, and_or_left]

theorem exists_byteKeyedRow_iff (w : Word) : (∃ r ∈ byteKeyedRows, w &&& r.mask = r.value) ↔
    ((fieldOp w).toNat = 0x0 ∧ (fieldKK w).toNat ∈ [0xE0, 0xEE]) ∨
    ((fieldOp w).toNat = 0xE ∧ (fieldKK w).toNat ∈ [0x9E, 0xA1]) ∨
    ((fieldOp w).toNat = 0xF ∧ (fieldKK w).toNat ∈ [0x07, 0x0A, 0x15, 0x18, 0x1E, 0x29, 0x33, 0x55, 0x65]) := by
  simp [byteKeyedRows, and_F0FF_eq_iff, and_or_left, or_assoc]

theorem topDigit_mem_iff (w : Word) :
    (fieldOp w).toNat ∈ [0x1, 0x2, 0x3, 0x4, 0x5, 0x6, 0x7, 0x9, 0xA, 0xB, 0xC, 0xD] ↔
      (fieldOp w).toNat ∉ [0x0, 0x8, 0xE, 0xF] := by
  have := (fieldOp w).isLt
  simp only [List.mem_cons, List.not_mem_nil, or_false]; omega

theorem lowDigit_mem_iff (w : Word) :
    (fieldN w).toNat ∈ [0x0, 0x1, 0x2, 0x3, 0x4, 0x5, 0x6, 0x7, 0xE] ↔
      (fieldN w).toNat ∉ [0x8, 0x9, 0xA, 0xB, 0xC, 0xD, 0xF] := by
  have := (fieldN w).isLt
  simp only [List.mem_cons, List.not_mem_nil, or_false]; omega

/-- The three kinds of row leave over, group by group, what R77 lists. -/
theorem exists_row_iff (w : Word) : (∃ r ∈ opcodeMap, w &&& r.mask = r.value) ↔ ¬ unrecognizedClass w.toNat := by
  have hkinds : (∃ r ∈ opcodeMap, w &&& r.mask = r.value) ↔
      ((∃ r ∈ byteKeyedRows, w &&& r.mask = r.value) ∨ ∃ r ∈ oneLevelRows, w &&& r.mask = r.value) ∨
        ∃ r ∈ nibbleKeyedRows, w &&& r.mask = r.value := by
    simp only [opcodeMap, List.mem_append, or_and_right, exists_or]
  rw [hkinds, exists_byteKeyedRow_iff, exists_oneLevelRow_iff, exists_nibbleKeyedRow_iff, topDigit_mem_iff,
    lowDigit_mem_iff]
  simp only [unrecognizedClass, ← fieldOp_toNat, ← fieldKK_toNat, ← fieldN_toNat]
  grind

/-! ### What a row's word decodes to, and that the row's instruction encodes to the word -/

theorem decode_oneLevelRow {r : OpcodeRow} (hr : r ∈ oneLevelRows) {w : Word} (h : w &&& r.mask = r.value) :
    decode w = r.build w ∧ encode (r.build w) = w := by
  fin_cases hr <;>
  · have hop := (and_F000_eq_iff (by decide)).mp h
    simp [decode, hop, encode, encNNN_fieldNNN, encXKK_fieldX, encXYN_fieldX_fieldY]

theorem decode_nibbleKeyedRow {r : OpcodeRow} (hr : r ∈ nibbleKeyedRows) {w : Word} (h : w &&& r.mask = r.value) :
    decode w = r.build w ∧ encode (r.build w) = w := by
  fin_cases hr <;>
  · obtain ⟨hop, hn⟩ := (and_F00F_eq_iff (by decide)).mp h
    exact ⟨by simp [decode, decodeGroup8, hop, hn], encXYN_fieldX_fieldY hop hn⟩

theorem decode_byteKeyedRow {r : OpcodeRow} (hr : r ∈ byteKeyedRows) {w : Word} (h : w &&& r.mask = r.value) :
    decode w = r.build w ∧ encode (r.build w) = w := by
  fin_cases hr <;>
  · obtain ⟨hop, hkk⟩ := (and_F0FF_eq_iff (by decide)).mp h
    exact ⟨by simp [decode, decodeGroup0, decodeGroupE, decodeGroupF, hop, hkk], encXKK_fieldX hop hkk⟩

theorem decode_row {r : OpcodeRow} (hr : r ∈ opcodeMap) {w : Word} (h : w &&& r.mask = r.value) :
    decode w = r.build w ∧ encode (r.build w) = w := by
  rcases List.mem_append.mp hr with hr | hr
  · rcases List.mem_append.mp hr with hr | hr
    · exact decode_byteKeyedRow hr h
    · exact decode_oneLevelRow hr h
  · exact decode_nibbleKeyedRow hr h

theorem build_ne_unknown {r : OpcodeRow} (hr : r ∈ opcodeMap) (w u : Word) : r.build w ≠ .unknown u := by
  fin_cases hr <;> exact nofun

/-- Every word is of the unrecognized class or matches a row. -/
theorem decode_cases (w : Word) :
    (unrecognizedClass w.toNat ∧ decode w = .unknown w) ∨
    (∃ r ∈ opcodeMap, w &&& r.mask = r.value ∧ decode w = r.build w ∧ encode (r.build w) = w) := by
  by_cases h : unrecognizedClass w.toNat
  · exact .inl ⟨h, decode_of_unrecognizedClass h⟩
  · obtain ⟨r, hr, hw⟩ := (exists_row_iff w).mpr h
    exact .inr ⟨r, hr, hw, decode_row hr hw⟩

theorem decode_eq_unknown_iff (w : Word) : decode w = .unknown w ↔ unrecognizedClass w.toNat := by
  refine ⟨fun h => ?_, decode_of_unrecognizedClass⟩
  rcases decode_cases w with ⟨hu, -⟩ | ⟨r, hr, -, hdec, -⟩
  · exact hu
  · exact absurd (hdec.symm.trans h) (build_ne_unknown hr w w)

/-! ### No word matches two rows -/

/-- Any two rows ask for different values of the bits that both of them look at. -/
theorem opcodeMap_pairwise_apart : opcodeMap.Pairwise fun r q => r.value &&& q.mask ≠ q.value &&& r.mask := by decide

theorem not_hits_of_apart {r q : OpcodeRow} {w : Word} (h : r.value &&& q.mask ≠ q.value &&& r.mask)
    (hr : r.hits w = true) : ¬ q.hits w = true := by
  intro hq
  simp only [OpcodeRow.hits, beq_iff_eq] at hr hq
  exact h (by rw [← hr, ← hq, BitVec.and_assoc, BitVec.and_assoc, BitVec.and_comm r.mask])

theorem length_filter_hits_le_one (w : Word) : (opcodeMap.filter fun r => r.hits w).length ≤ 1 := by
  have hhits : ∀ r ∈ opcodeMap.filter fun r => r.hits w, r.hits w = true := fun r hr => (List.mem_filter.mp hr).2
  have hapart := opcodeMap_pairwise_apart.filter fun r => r.hits w
  generalize (opcodeMap.filter fun r => r.hits w) = rows at hhits hapart
  cases hapart with
  | nil => simp
  | cons hr hrows =>
    cases hrows with
    | nil => simp
    | cons => exact absurd (hhits _ (.tail _ (.head _))) (not_hits_of_apart (hr _ (.head _)) (hhits _ (.head _)))

theorem filter_hits_eq_nil_iff (w : Word) :
    (opcodeMap.filter fun r => r.hits w) = [] ↔ unrecognizedClass w.toNat := by
  rw [List.filter_eq_nil_iff, ← not_iff_not, ← exists_row_iff]
  simp [OpcodeRow.hits]

/-! ### Every instruction and every step answers a next state -/

theorem exec_next (i : Instr) (s : State) : ∃ t, exec i s = .next t := by
  cases hf : fatalOf s i with
  | some c => exact ⟨_, exec_of_fatal hf⟩
  | none =>
    cases i
    case ret => obtain ⟨k, hk⟩ := exists_top_of_ret hf; exact ⟨_, exec_ret k hk⟩
    case call => obtain ⟨k, hk⟩ := exists_free_of_call hf; exact ⟨_, exec_call k hk⟩
    case drw => exact ⟨_, exec_drw hf⟩
    case ldB => exact ⟨_, exec_ldB hf⟩
    case ldMemVx => exact ⟨_, exec_ldMemVx hf⟩
    case ldVxMem => exact ⟨_, exec_ldVxMem hf⟩
    all_goals exact ⟨_, rfl⟩

theorem stepCycle_next (s : State) : ∃ t, stepCycle s = .next t := by
  unfold stepCycle
  split
  · exact ⟨_, rfl⟩
  · exact ⟨_, rfl⟩
  · split
    · exact exec_next _ _
    · exact ⟨_, rfl⟩

theorem beginTransaction_next (x : Transaction) (s : State) : ∃ t, beginTransaction x s = .next t := by
  cases x with
  | load bytes => exact ⟨_, rfl⟩
  | frameTick k => exact ⟨_, rfl⟩
  | stepCycle => exact stepCycle_next s

theorem step_next (s : State) : ∃ t, step s = .next t := by
  unfold step advance
  split
  · obtain ⟨t, ht⟩ := stepCycle_next s
    exact ⟨t.endCycle, by rw [frameCycle, ht, mapNext]⟩
  · split
    · exact beginTransaction_next _ _
    · exact stepCycle_next s

end Sys2Proof.Machine

open Sys2Proof Sys2Proof.Machine

/-- Settles O2, by the form of the instruction's pattern. -/
theorem decodeInvertsEncode : Obligations.DecodeInvertsEncode :=
  fun _ h => decode_encode h

/-- Settles O3: a word of the unrecognized class is its own encoding, and any other matches a row. -/
theorem encodeInvertsDecode : Obligations.EncodeInvertsDecode := by
  intro w
  rcases decode_cases w with ⟨hu, hdec⟩ | ⟨r, hr, -, hdec, henc⟩ <;> rw [hdec]
  · exact ⟨(isUnrecognized_iff w).mpr hu, rfl⟩
  · exact ⟨Instr.wf_of_ne_unknown (build_ne_unknown hr w), henc⟩

/-- Settles O4, by the kind of key the row has. -/
theorem everyOpcodeMapRowDecodes : Obligations.EveryOpcodeMapRowDecodes :=
  fun _ hr _ h => (decode_row hr h).1

/-- Settles O5: any two rows are apart, and the words that match none are those of the unrecognized class. -/
theorem everyWordMatchesOneRowOrIsUnknown : Obligations.EveryWordMatchesOneRowOrIsUnknown :=
  fun w => ⟨length_filter_hits_le_one w, (filter_hits_eq_nil_iff w).trans (decode_eq_unknown_iff w).symm⟩

/-- Settles O6: the class is ruled out of every group's keys, and a word outside it matches a row. -/
theorem unrecognizedWordsAreTheListedOnes : Obligations.UnrecognizedWordsAreTheListedOnes :=
  decode_eq_unknown_iff

/-- Settles O11: an instruction with a fatal condition halts the core, which is a next state; a step is a cycle or the
start of a transaction. -/
theorem everyInstructionAndStepGoesOn : Obligations.EveryInstructionAndStepGoesOn :=
  ⟨exec_next, step_next⟩

/-- Settles O1: the decoder evaluated on twenty fixed words. -/
theorem patternWordsDecode : Obligations.PatternWordsDecode := by
  unfold Obligations.PatternWordsDecode
  decide
end

section
/-! PROOFS. Fetch, execute and frames (40_fetch_execute.md R100 to R115): what a step does in each kind of state, the
start of a running frame, and that the steps of a frame are the cycle loop of the spec's pseudocode. -/

namespace Sys2Proof.Machine

/-! ### One cycle, by run state and pc -/

theorem stepCycle_of_not_running {s : State} (hr : s.runState ≠ .running) : stepCycle s = .next s := by
  cases h : s.runState with
  | running => exact absurd h hr
  | awaitingKey r => simp only [stepCycle, h]
  | halted f => simp only [stepCycle, h]

theorem stepCycle_of_fetch {s : State} (hr : s.runState = .running) (hpc : s.pc.toNat ≤ 0xFFE) :
    stepCycle s = exec (decode s.fetchWord) { s with pc := s.pc + 2 } := by
  simp only [stepCycle, hr, if_pos (show s.canFetch = true from decide_eq_true hpc)]

theorem stepCycle_of_fetchFault {s : State} (hr : s.runState = .running) (hpc : 0xFFE < s.pc.toNat) :
    stepCycle s = .next (s.raiseFatal .fetchOutOfRange s.pc 0) := by
  have hc : ¬ s.canFetch = true := mt of_decide_eq_true (Nat.not_le.mpr hpc)
  simp only [stepCycle, hr, if_neg hc]

/-! ### One step, by what is in progress and pending -/

theorem step_of_nothing_pending {s : State} (hf : s.frameLeft = 0) (hp : s.pending = []) : step s = stepCycle s := by
  simp only [step, advance, hf, hp]

theorem step_of_frame {s : State} {n : Nat} (hf : s.frameLeft = n + 1) :
    step s = mapNext State.endCycle (stepCycle s) := by
  simp only [step, advance, hf, frameCycle]

/-! ### The end of a frame's cycle -/

/-- The state with another count of cycles left of the frame. -/
def State.withFrameLeft (n : Nat) (s : State) : State := { s with frameLeft := n }

theorem State.withFrameLeft_self {s : State} {n : Nat} (h : s.frameLeft = n) : s.withFrameLeft n = s := by
  subst h; rfl

theorem State.onlyChanges_withFrameLeft (s : State) (n : Nat) : OnlyChanges [.frameLeft] s (s.withFrameLeft n) := by
  intro p hp; cases p <;> simp_all [Part.Same, State.withFrameLeft, State.getV, State.memRead, State.bg]

theorem State.endCycle_of_running {s : State} (h : s.runState = .running) :
    s.endCycle = s.withFrameLeft (s.frameLeft - 1) := by
  simp only [State.endCycle, h, State.withFrameLeft]

theorem State.endCycle_of_not_running {s : State} (h : s.runState ≠ .running) : s.endCycle = s.withFrameLeft 0 := by
  cases hs : s.runState with
  | running => exact absurd hs h
  | awaitingKey r => simp only [State.endCycle, hs, State.withFrameLeft]
  | halted f => simp only [State.endCycle, hs, State.withFrameLeft]

/-! ### The start of a running frame -/

theorem countdown_toNat (t : Byte) : (countdown t).toNat = t.toNat - 1 := by
  unfold countdown
  split <;> bv_omega

/-- Both timers fall by 1 where they can, and the tone is decided by the sound timer after its decrement, which is above 0
exactly where the timer stood above 1 (60_exceptions.md R240, R241). -/
theorem State.timerStep_values (s : State) :
    s.timerStep.DT.toNat = s.DT.toNat - 1 ∧ s.timerStep.ST.toNat = s.ST.toNat - 1 ∧
      s.timerStep.toneOn = decide (1 < s.ST.toNat) ∧
      s.timerStep.trace = s.trace ++ [if 1 < s.ST.toNat then .tonePlay s.cfg.toneFreq else .toneStop] := by
  by_cases h : 1 < s.ST.toNat <;> simp [State.timerStep, State.toneDecision, h, countdown_toNat]

theorem State.onlyChanges_timerStep (s : State) : OnlyChanges [.delay, .sound, .tone, .trace] s s.timerStep := by
  rw [State.timerStep_eq]
  intro p hp; cases p <;> simp_all [Part.Same, State.getV, State.memRead, State.bg]

/-- A running core's frame begins with the key sample and the timer step, and has all its cycles to run (R110, R113). -/
theorem step_of_runningFrame {s : State} {k : Word} {ts : List Transaction}
    (hr : s.runState = .running) (hf : s.frameLeft = 0) (hp : s.pending = .frameTick k :: ts) :
    step s = .next
      (State.withFrameLeft s.cfg.cyclesPerFrame (State.timerStep { s with keys := k, pending := ts })) := by
  rw [step_of_pending hf hp]
  simp only [beginTransaction, State.beginFrame, hr, (State.timerStep_keeps _).1, State.withFrameLeft]

/-! ### No instruction reads how many cycles are left -/

section
variable (n : Nat) (s : State)

theorem fatalOf_withFrameLeft (i : Instr) : fatalOf (s.withFrameLeft n) i = fatalOf s i := by cases i <;> rfl

theorem State.skipIf_withFrameLeft (c : Bool) : (s.withFrameLeft n).skipIf c = (s.skipIf c).withFrameLeft n := by
  cases c <;> rfl

theorem State.storeRegs_withFrameLeft (base : Nat) (is : List RegIx) :
    (s.withFrameLeft n).storeRegs base is = (s.storeRegs base is).withFrameLeft n :=
  List.foldl_hom (State.withFrameLeft n) fun _ _ => rfl

theorem State.loadRegs_withFrameLeft (base : Nat) (is : List RegIx) :
    (s.withFrameLeft n).loadRegs base is = (s.loadRegs base is).withFrameLeft n :=
  List.foldl_hom (State.withFrameLeft n) fun _ _ => rfl

theorem State.toggleAll_withFrameLeft (pts : List (Nat × Nat)) :
    (s.withFrameLeft n).toggleAll pts = ((s.toggleAll pts).1.withFrameLeft n, (s.toggleAll pts).2) := by
  simp only [State.toggleAll_eq]; rfl

theorem State.drawRnd_withFrameLeft :
    (s.withFrameLeft n).drawRnd = (s.drawRnd.1, s.drawRnd.2.withFrameLeft n) := by
  cases h : s.rndIn <;> simp [State.drawRnd, State.withFrameLeft, h]

/-- Executing an instruction commutes with replacing the count of cycles left of the frame. -/
theorem exec_withFrameLeft (i : Instr) :
    exec i (s.withFrameLeft n) = mapNext (State.withFrameLeft n) (exec i s) := by
  cases hf : fatalOf s i with
  | some c => rw [exec_of_fatal hf, exec_of_fatal ((fatalOf_withFrameLeft n s i).trans hf)]; rfl
  | none =>
    have hf' := (fatalOf_withFrameLeft n s i).trans hf
    cases i
    case ret =>
      obtain ⟨k, hk⟩ := exists_top_of_ret hf
      rw [exec_ret k hk, exec_ret (s := s.withFrameLeft n) k hk]; rfl
    case call =>
      obtain ⟨k, hk⟩ := exists_free_of_call hf
      rw [exec_call k hk, exec_call (s := s.withFrameLeft n) k hk]; rfl
    case drw => rw [exec_drw hf, exec_drw hf', State.toggleAll_withFrameLeft]; rfl
    case ldB => rw [exec_ldB hf, exec_ldB hf']; rfl
    case ldMemVx =>
      rw [exec_ldMemVx hf, exec_ldMemVx hf', State.storeRegs_withFrameLeft, mapNext,
        apply_ite (State.withFrameLeft n)]; rfl
    case ldVxMem =>
      rw [exec_ldVxMem hf, exec_ldVxMem hf', State.loadRegs_withFrameLeft, mapNext,
        apply_ite (State.withFrameLeft n)]; rfl
    case rnd => simp only [exec, execRnd, State.drawRnd_withFrameLeft]; rfl
    case seByte | sneByte | seReg | sneReg | skp | sknp => exact congrArg _ (State.skipIf_withFrameLeft n s _)
    all_goals rfl

end

theorem stepCycle_withFrameLeft {s u : State} (n : Nat) (hr : s.runState = .running) (h : stepCycle s = .next u) :
    stepCycle (s.withFrameLeft n) = .next (u.withFrameLeft n) := by
  rcases Nat.lt_or_ge 0xFFE s.pc.toNat with hpc | hpc
  · rw [stepCycle_of_fetchFault hr hpc] at h; cases h
    exact stepCycle_of_fetchFault (s := s.withFrameLeft n) hr hpc
  · rw [stepCycle_of_fetch hr hpc] at h
    rw [stepCycle_of_fetch (s := s.withFrameLeft n) hr hpc]
    calc _ = exec (decode s.fetchWord) (State.withFrameLeft n { s with pc := s.pc + 2 }) := rfl
      _ = _ := by rw [exec_withFrameLeft, h, mapNext]

/-! ### The steps of a frame are the pseudocode's cycle loop -/

/-- With n + 1 cycles left a running core's step is a cycle, after which n are left, or none where the core no longer
runs (R114). -/
theorem step_withFrameLeft {s u : State} (n : Nat) (hr : s.runState = .running) (h : stepCycle s = .next u) :
    step (s.withFrameLeft (n + 1)) = .next (u.withFrameLeft (if u.runState = .running then n else 0)) := by
  rw [step_of_frame rfl, stepCycle_withFrameLeft (n + 1) hr h, mapNext]
  split
  next hu => exact congrArg _ (State.endCycle_of_running (s := u.withFrameLeft (n + 1)) hu)
  next hu => exact congrArg _ (State.endCycle_of_not_running (s := u.withFrameLeft (n + 1)) hu)

/-- From a running core with n cycles left, at most n steps do what the pseudocode's loop of n cycles does, which keeps no
count of its own. -/
theorem run_eq_runCycles (n : Nat) {s : State} (hr : s.runState = .running) (hf : s.frameLeft = 0) :
    ∃ (m : Nat) (t : State), m ≤ n ∧ Host.Core.run Sys2Proof.core m (s.withFrameLeft n) = .next t ∧
      t.frameLeft = 0 ∧ runCycles n s = .next t := by
  induction n generalizing s with
  | zero => exact ⟨0, s, le_rfl, congrArg _ (State.withFrameLeft_self hf), hf, rfl⟩
  | succ n ih =>
    obtain ⟨u, hu⟩ := stepCycle_next s
    obtain ⟨-, -, hkeep, -⟩ := stepCycle_keeps hu
    have hstep := step_withFrameLeft n hr hu
    rw [runCycles_running hr hu]
    by_cases hru : u.runState = .running
    · rw [if_pos hru] at hstep
      obtain ⟨m, t, hm, hrun, ht, hloop⟩ := ih hru (hkeep.trans hf)
      exact ⟨m + 1, t, Nat.succ_le_succ hm, (run_succ hstep).trans hrun, ht, hloop⟩
    · rw [if_neg hru, State.withFrameLeft_self (hkeep.trans hf)] at hstep
      exact ⟨1, u, Nat.le_add_left 1 n, run_succ hstep, hkeep.trans hf, runCycles_idle hru⟩

theorem frameTick_of_running {s : State} (hr : s.runState = .running) (k : Word) :
    frameTick k s = runCycles s.cfg.cyclesPerFrame (State.timerStep { s with keys := k }) := by
  simp only [frameTick, hr]

/-- A transaction that is no frame of a running core is done once it is begun (R107, R111, R112). -/
theorem transact_cases (x : Transaction) (s : State) :
    (∃ t, beginTransaction x s = .next t ∧ transact x s = .next t ∧ t.frameLeft = s.frameLeft) ∨
      (s.runState = .running ∧ ∃ k, x = .frameTick k) := by
  cases x with
  | load bytes => exact .inl ⟨_, rfl, rfl, s.load_frameLeft bytes⟩
  | stepCycle =>
    obtain ⟨t, ht⟩ := stepCycle_next s
    obtain ⟨-, -, hkeep, -⟩ := stepCycle_keeps ht
    exact .inl ⟨t, ht, ht, hkeep⟩
  | frameTick k =>
    cases hr : s.runState with
    | running => exact .inr ⟨rfl, k, rfl⟩
    | halted f =>
      exact .inl ⟨{ s with keys := k }, by simp only [beginTransaction, State.beginFrame, hr],
        by simp only [transact, frameTick, hr], rfl⟩
    | awaitingKey r =>
      exact .inl ⟨State.awaitResolve r { s with keys := k }, by simp only [beginTransaction, State.beginFrame, hr],
        by simp only [transact, frameTick, hr], by rw [State.awaitResolve_eq]⟩

end Sys2Proof.Machine

open Sys2Proof Sys2Proof.Machine

/-- Settles O18: a running frame's start leaves its cycles to as many steps at most, which are the pseudocode's loop; any
other transaction is one step. -/
theorem stepsCarryOutWholeTransactions : Obligations.StepsCarryOutWholeTransactions := by
  intro s x ts hf hp
  rcases transact_cases x { s with pending := ts } with ⟨t, hb, hx, ht⟩ | ⟨hr, k, rfl⟩
  · have hstep := (step_of_pending hf hp).trans hb
    exact ⟨1, t, le_rfl, Nat.le_add_left 1 _, run_succ hstep, ht.trans hf, hx⟩
  · have hkeep := State.onlyChanges_timerStep { s with keys := k, pending := ts }
    obtain ⟨m, t, hm, hrun, ht, hloop⟩ := run_eq_runCycles s.cfg.cyclesPerFrame
      (Eq.trans (hkeep .runState (by decide)) hr) (Eq.trans (hkeep .frameLeft (by decide)) hf)
    exact ⟨m + 1, t, Nat.le_add_left 1 m, Nat.succ_le_succ hm,
      (run_succ (step_of_runningFrame (s := s) hr hf hp)).trans hrun, ht, (frameTick_of_running hr k).trans hloop⟩

/-- Settles O17: the cycle keeps the count, and its end takes 1 from it or drops it. -/
theorem frameLoopEndsWhenTheCoreStopsRunning : Obligations.FrameLoopEndsWhenTheCoreStopsRunning := by
  intro s n _ hf
  obtain ⟨u, hu⟩ := stepCycle_next s
  obtain ⟨-, -, hkeep, -⟩ := stepCycle_keeps hu
  have hrun : u.endCycle.runState = u.runState := by rw [State.endCycle_eq]
  refine ⟨u.endCycle, by rw [step_of_frame hf, hu, mapNext], fun hr => ?_, fun hr => ?_⟩
  · rw [State.endCycle_of_running (hrun ▸ hr), hkeep, hf]; rfl
  · rw [State.endCycle_of_not_running (hrun ▸ hr)]; rfl

/-- Settles O14: the frame's start is the key sample, the timer step and the count of cycles to run. -/
theorem runningFrameCountsTimersThenDecidesTone : Obligations.RunningFrameCountsTimersThenDecidesTone := by
  intro s k ts hr hf hp
  have htimers := State.onlyChanges_timerStep { s with keys := k, pending := ts }
  refine ⟨_, step_of_runningFrame hr hf hp, ?_, htimers .keys (by decide), htimers .pending (by decide), rfl,
    State.timerStep_values { s with keys := k, pending := ts }⟩
  exact (((onlyChanges_keys_pending s k ts).append htimers).append (State.onlyChanges_withFrameLeft _ _)).mono
    (by simp)

/-- Settles O13, by what is first in line: nothing or a cycle, which is idle, or a frame, which samples the keys. -/
theorem haltedCoreKeepsEverythingUntilLoad : Obligations.HaltedCoreKeepsEverythingUntilLoad := by
  intro s f hr hf hload
  have hidle : s.runState ≠ .running := by rw [hr]; nofun
  match hp : s.pending with
  | [] => exact ⟨s, (step_of_nothing_pending hf hp).trans (stepCycle_of_not_running hidle), hr, OnlyChanges.refl _ s⟩
  | .load bytes :: ts => exact absurd hp (hload bytes ts)
  | .stepCycle :: ts =>
    exact ⟨_, (step_of_pending hf hp).trans (stepCycle_of_not_running hidle), hr,
      onlyChanges_keys_pending s s.keys ts⟩
  | .frameTick k :: ts =>
    refine ⟨{ s with keys := k, pending := ts }, ?_, hr, onlyChanges_keys_pending s k ts⟩
    rw [step_of_pending hf hp]
    simp only [beginTransaction, State.beginFrame, hr]

/-- Settles O7: the word fetched is the two bytes at pc, and each kind of step runs the cycle that executes it. -/
theorem stepRunsTheDecodedInstruction : Obligations.StepRunsTheDecodedInstruction := by
  rintro s hi lo hr hpc rfl rfl
  have hcycle := stepCycle_of_fetch hr hpc
  refine ⟨fun hf hp => (step_of_nothing_pending hf hp).trans hcycle, fun ts hf hp => ?_, fun n hf => ?_⟩
  · exact (step_of_pending hf hp).trans (stepCycle_of_fetch (s := { s with pending := ts }) hr hpc)
  · exact (step_of_frame hf).trans (congrArg _ hcycle)

/-- Settles O8: the fetch fault is one fatal condition, which changes the run state and the trace alone. -/
theorem fetchPastTheEndHalts : Obligations.FetchPastTheEndHalts := by
  intro s hr hpc
  have hcycle := stepCycle_of_fetchFault hr hpc
  exact ⟨_, hcycle, haltsWith_raiseFatal _ _ _ s, fun hf hp => (step_of_nothing_pending hf hp).trans hcycle⟩

/-- Settles O9: a cycle looks at the run state first. -/
theorem cycleIsIdleUnlessRunning : Obligations.CycleIsIdleUnlessRunning :=
  fun _ hr => ⟨stepCycle_of_not_running hr,
    fun hf hp => (step_of_nothing_pending hf hp).trans (stepCycle_of_not_running hr)⟩

/-- Settles O10: an unrecognized word's meaning is the emission of its diagnostic. -/
theorem unknownWordOnlyEmitsItsDiagnostic : Obligations.UnknownWordOnlyEmitsItsDiagnostic :=
  fun _ s => ⟨_, rfl, s.onlyChanges_emit _, rfl⟩
end

section
/-! PROOFS. Control transfer (41_control_flow.md R120 to R128): the values pc is loaded with, what a skip does, and what
RET and CALL do where the call stack has an entry to pop or to push to and where it has none. -/

namespace Sys2Proof.Machine

/-! ### Jump targets -/

theorem zext16_toNat (nnn : Addr12) : (zext16 nnn).toNat = nnn.toNat :=
  BitVec.toNat_setWidth_of_le (by decide)

/-- The sum of nnn and V0 needs no more than 16 bits, so only the mask narrows it (R128). -/
theorem jumpV0Target_toNat {m : JumpMask} {n : Nat} (hm : (jumpMaskValue m).toNat = 2 ^ n - 1) (nnn : Addr12)
    (v : Byte) :
    (jumpV0Target m nnn v).toNat = (nnn.toNat + v.toNat) % 2 ^ n := by
  have hsum : nnn.toNat + v.toNat < 2 ^ 16 := by omega
  rw [jumpV0Target, BitVec.toNat_and, hm, Nat.and_two_pow_sub_one_eq_mod, BitVec.toNat_ofNat, Nat.mod_eq_of_lt hsum]

/-! ### Skips -/

/-- A skip where two bytes are equal, the bytes compared as numbers (R120, R124, R126). -/
theorem State.skipIf_eq_bytes (s : State) (a b : Byte) :
    OnlyChanges [.pc] s (s.skipIf (decide (a = b))) ∧
      (s.skipIf (decide (a = b))).pc = if a.toNat = b.toNat then s.pc + 2 else s.pc :=
  ⟨s.onlyChanges_skipIf _, by simp only [State.skipIf_pc, decide_eq_true_eq, BitVec.toNat_inj]⟩

/-- A skip where two bytes differ (R120, R125, R127). -/
theorem State.skipIf_ne_bytes (s : State) (a b : Byte) :
    OnlyChanges [.pc] s (s.skipIf (decide (a ≠ b))) ∧
      (s.skipIf (decide (a ≠ b))).pc = if a.toNat = b.toNat then s.pc else s.pc + 2 :=
  ⟨s.onlyChanges_skipIf _, by simp only [State.skipIf_pc, decide_eq_true_eq, BitVec.toNat_inj, ne_eq, ite_not]⟩

/-! ### Fatal conditions -/

theorem haltsWith_of_fatal {s : State} {i : Instr} {c : FaultCode} (h : fatalOf s i = some c) :
    ∃ t, exec i s = .next t ∧ HaltsWith ⟨c, s.pc - 2, encode i⟩ s t :=
  ⟨_, exec_of_fatal h, haltsWith_fatalAt c _ s⟩

end Sys2Proof.Machine

open Sys2Proof Sys2Proof.Machine

/-- Settles O25: the entry CALL pushed is the one on top when RET pops, and CALL keeps the entries below it. -/
theorem returnAfterCallResumes : Obligations.ReturnAfterCallResumes := by
  intro nnn ign s hsp
  obtain ⟨k, hk⟩ := (sp_cases_push s).resolve_left hsp.ne
  refine ⟨_, _, exec_call k hk, exec_ret k rfl, ?_, Fin.ext hk.symm, fun j hj => ?_⟩
  · exact Vector.getElem_set_self k.isLt
  · exact Vector.getElem_set_ne k.isLt j.isLt (hk ▸ hj.ne')

/-- Settles O23, by whether an entry is in use. -/
theorem returnPopsIntoPc : Obligations.ReturnPopsIntoPc := by
  intro ign s
  rcases sp_cases s with hs | ⟨k, hk⟩
  · obtain ⟨t, he, hhalt⟩ := haltsWith_of_fatal (i := .ret ign) (if_pos hs)
    exact ⟨t, he, fun j hj => by omega, fun _ => hhalt⟩
  · refine ⟨_, exec_ret k hk, fun j hj => ?_, fun hs => by omega⟩
    obtain rfl : j = k := Fin.ext (by omega)
    exact ⟨onlyChanges_callStack_pc s _ _ _, rfl, rfl, fun _ => rfl⟩

/-- Settles O24, by whether an entry is free. -/
theorem callPushesTheAdvancedPc : Obligations.CallPushesTheAdvancedPc := by
  intro nnn s
  rcases sp_cases_push s with hs | ⟨k, hk⟩
  · obtain ⟨t, he, hhalt⟩ := haltsWith_of_fatal (i := .call nnn) (if_pos hs)
    exact ⟨t, he, fun j hj => by omega, fun _ => hhalt⟩
  · refine ⟨_, exec_call k hk, fun j hj => ?_, fun hs => by omega⟩
    obtain rfl : j = k := Fin.ext (by omega)
    exact ⟨onlyChanges_callStack_pc s _ _ _, rfl, Vector.getElem_set_self j.isLt,
      fun i hi => Vector.getElem_set_ne j.isLt i.isLt (Fin.val_ne_of_ne hi.symm), zext16_toNat nnn⟩

/-- Settles O26: JP writes pc alone. -/
theorem jumpLoadsPc : Obligations.JumpLoadsPc :=
  fun nnn s => ⟨_, rfl, onlyChanges_pc s _, zext16_toNat nnn⟩

/-- Settles O27: the masks are twelve and eight ones, so masking the sum is a modulus. -/
theorem jumpV0MasksTheSum : Obligations.JumpV0MasksTheSum := by
  intro nnn s
  refine ⟨_, rfl, onlyChanges_pc s _, fun hm => ?_, fun hm => ?_⟩
  · exact jumpV0Target_toNat (n := 12) (by rw [hm]; rfl) nnn (s.getV 0)
  · exact jumpV0Target_toNat (n := 8) (by rw [hm]; rfl) nnn (s.getV 0)

/-- Settles O28: the skips compare Vx with the byte. -/
theorem byteSkipsCompare : Obligations.ByteSkipsCompare :=
  fun x kk s => ⟨⟨_, rfl, s.skipIf_eq_bytes (s.getV x) kk⟩, ⟨_, rfl, s.skipIf_ne_bytes (s.getV x) kk⟩⟩

/-- Settles O29: the skips compare Vx with Vy, and the ignored nibble is not read. -/
theorem registerSkipsCompare : Obligations.RegisterSkipsCompare :=
  fun x y _ s =>
    ⟨⟨_, rfl, s.skipIf_eq_bytes (s.getV x) (s.getV y)⟩, ⟨_, rfl, s.skipIf_ne_bytes (s.getV x) (s.getV y)⟩⟩
end

section
/-! PROOFS. Register loads, arithmetic, logic, shifts and random (42_alu.md R140 to R153): what the narrowed results and
the flags are as numbers, and what writing a result, with or without a flag, leaves in the registers. -/

namespace Sys2Proof.Machine

/-! ### Results and flags as numbers -/

theorem aluSum_toNat (a b : Byte) : (aluSum a b).toNat = (a.toNat + b.toNat) % 256 := BitVec.toNat_ofNat _ _

theorem aluDifference_toNat (a b : Byte) : ((aluDifference a b).toNat : Int) = ((a.toNat : Int) - b.toNat) % 256 := by
  rw [aluDifference, BitVec.toNat_ofInt]
  exact Int.toNat_of_nonneg (Int.emod_nonneg _ (by decide))

theorem flagByte_decide (p : Prop) [Decidable p] : flagByte (decide p) = if p then 1 else 0 := by
  simp only [flagByte, decide_eq_true_eq]

theorem shiftRight_one_toNat (a : Byte) : (a >>> 1).toNat = a.toNat / 2 := by
  rw [BitVec.toNat_ushiftRight, Nat.shiftRight_eq_div_pow]

theorem shiftLeft_one_toNat (a : Byte) : (a <<< 1).toNat = a.toNat * 2 % 256 := by
  rw [BitVec.toNat_shiftLeft, Nat.shiftLeft_eq]

theorem flagShiftedOutRight_toNat (a : Byte) : (flagShiftedOutRight a).toNat = a.toNat % 2 := by
  rw [flagShiftedOutRight, BitVec.toNat_and]
  exact Nat.and_one_is_mod _

/-- Shifted right by seven, a byte is its highest bit, so masking with 1 takes nothing away (R152). -/
theorem flagShiftedOutLeft_toNat (a : Byte) : (flagShiftedOutLeft a).toNat = a.toNat / 128 := by
  have hmask : (flagShiftedOutLeft a).toNat = a.toNat / 2 ^ 7 % 2 := by
    rw [flagShiftedOutLeft, BitVec.toNat_and, BitVec.toNat_ushiftRight, Nat.shiftRight_eq_div_pow]
    exact Nat.and_one_is_mod _
  omega

/-! ### A result without a flag -/

theorem State.keepsRegsBut_setV (s : State) (x : RegIx) (v : Byte) : KeepsRegsBut [x] s (s.setV x v) :=
  fun r hr => (s.getV_setV x r v).trans (if_neg (by simpa using hr))

/-! ### A result, then a flag -/

theorem State.onlyChanges_setResultThenFlag (s : State) (x : RegIx) (v f : Byte) :
    OnlyChanges [.regs] s (s.setResultThenFlag x v f) :=
  (s.onlyChanges_setV x v).trans (State.onlyChanges_setV _ VF f)

theorem State.keepsRegsBut_setResultThenFlag (s : State) (x : RegIx) (v f : Byte) :
    KeepsRegsBut [x, VF] s (s.setResultThenFlag x v f) := by
  intro r hr
  obtain ⟨hx, hF⟩ : r ≠ x ∧ r ≠ VF := by simpa using hr
  rw [State.getV_setResultThenFlag, if_neg hF, if_neg hx]

/-- The result stays in Vx unless Vx is VF, where the flag, written after it, replaces it (R141). -/
theorem State.getV_setResultThenFlag_result (s : State) {x : RegIx} (hx : x ≠ VF) (v f : Byte) :
    (s.setResultThenFlag x v f).getV x = v := by
  rw [State.getV_setResultThenFlag, if_neg hx, if_pos rfl]

theorem State.getV_setResultThenFlag_flag (s : State) (x : RegIx) (v f : Byte) :
    (s.setResultThenFlag x v f).getV VF = f := by
  rw [State.getV_setResultThenFlag, if_pos rfl]

/-- SUB and SUBN are one operation with the minuend and the subtrahend exchanged (R149, R151). -/
theorem State.subtraction_effect (s : State) (x : RegIx) (a b : Byte) :
    let t := s.setResultThenFlag x (aluDifference a b) (flagNoBorrow a b)
    OnlyChanges [.regs] s t ∧ KeepsRegsBut [x, VF] s t ∧
      (x ≠ VF → ((t.getV x).toNat : Int) = ((a.toNat : Int) - b.toNat) % 256) ∧
      t.getV VF = if a.toNat > b.toNat then 1 else 0 :=
  ⟨s.onlyChanges_setResultThenFlag x _ _, s.keepsRegsBut_setResultThenFlag x _ _,
    fun hx => by rw [s.getV_setResultThenFlag_result hx, aluDifference_toNat],
    (s.getV_setResultThenFlag_flag x _ _).trans (flagByte_decide _)⟩

end Sys2Proof.Machine

open Sys2Proof Sys2Proof.Machine

/-- Settles O30: both loads write one register, with the byte or with what Vy holds. -/
theorem registerLoadsCopy : Obligations.RegisterLoadsCopy :=
  fun x _ _ s => ⟨⟨_, rfl, s.onlyChanges_setV x _, s.keepsRegsBut_setV x _, s.getV_setV_same x _⟩,
    ⟨_, rfl, s.onlyChanges_setV x _, s.keepsRegsBut_setV x _, s.getV_setV_same x _⟩⟩

/-- Settles O31: each is the operation of the same name on words, which works bit by bit. -/
theorem logicIsBitwiseWithoutFlag : Obligations.LogicIsBitwiseWithoutFlag := by
  intro x y s
  refine ⟨⟨_, rfl, s.onlyChanges_setV x _, s.keepsRegsBut_setV x _, fun k _ => ?or⟩,
    ⟨_, rfl, s.onlyChanges_setV x _, s.keepsRegsBut_setV x _, fun k _ => ?and⟩,
    ⟨_, rfl, s.onlyChanges_setV x _, s.keepsRegsBut_setV x _, fun k _ => ?xor⟩⟩
  case or => rw [State.getV_setV_same, BitVec.getLsbD_or]
  case and => rw [State.getV_setV_same, BitVec.getLsbD_and]
  case xor => rw [State.getV_setV_same, BitVec.getLsbD_xor]

/-- Settles O32: the sum is narrowed to a byte and written to one register. -/
theorem addByteWrapsWithoutFlag : Obligations.AddByteWrapsWithoutFlag :=
  fun x _ s => ⟨_, rfl, s.onlyChanges_setV x _, s.keepsRegsBut_setV x _,
    by rw [State.getV_setV_same, aluSum_toNat]⟩

/-- Settles O33: the sum is narrowed and written, then the carry, which is a comparison of the exact sum. -/
theorem addRegisterSetsCarry : Obligations.AddRegisterSetsCarry :=
  fun x _ s => ⟨_, rfl, s.onlyChanges_setResultThenFlag x _ _, s.keepsRegsBut_setResultThenFlag x _ _,
    fun hx => by rw [s.getV_setResultThenFlag_result hx, aluSum_toNat],
    (s.getV_setResultThenFlag_flag x _ _).trans (flagByte_decide _)⟩

/-- Settles O34: SUB and SUBN differ in which operand is the minuend. -/
theorem subtractionsSetStrictNoBorrow : Obligations.SubtractionsSetStrictNoBorrow :=
  fun x y s => ⟨⟨_, rfl, s.subtraction_effect x (s.getV x) (s.getV y)⟩,
    ⟨_, rfl, s.subtraction_effect x (s.getV y) (s.getV x)⟩⟩

/-- Settles O35: shifts by one are a division and a product by two, and the flags the lowest and the highest bit. -/
theorem shiftsSetTheBitShiftedOut : Obligations.ShiftsSetTheBitShiftedOut := by
  intro x ignY s
  refine ⟨⟨_, rfl, s.onlyChanges_setResultThenFlag x _ _, s.keepsRegsBut_setResultThenFlag x _ _,
      fun hx => ?half, ?low⟩,
    ⟨_, rfl, s.onlyChanges_setResultThenFlag x _ _, s.keepsRegsBut_setResultThenFlag x _ _,
      fun hx => ?double, ?high⟩⟩
  case half => rw [s.getV_setResultThenFlag_result hx, shiftRight_one_toNat]
  case low => rw [State.getV_setResultThenFlag_flag, flagShiftedOutRight_toNat]
  case double => rw [s.getV_setResultThenFlag_result hx, shiftLeft_one_toNat]
  case high => rw [State.getV_setResultThenFlag_flag, flagShiftedOutLeft_toNat]

/-- Settles O36: the draw takes the head of the port's queue, which is the byte waiting there, and the write that
follows changes one register. -/
theorem randomTakesOneDraw : Obligations.RandomTakesOneDraw := by
  intro x kk s
  obtain ⟨hstate, hbyte⟩ := s.drawRnd_eq
  refine ⟨_, s.drawRnd.1, rfl, ?parts, fun r hr => ?others, ?count, State.getV_setV_same _ x _,
    fun b bs hq => ⟨?byte, ?rest⟩, fun hq => ?none⟩
  case parts => exact (s.onlyChanges_drawRnd.append (State.onlyChanges_setV _ x _)).mono (by decide)
  case others => exact (State.keepsRegsBut_setV _ x _ r hr).trans (s.getV_drawRnd r)
  case count => rw [State.setV_draws, hstate]
  case byte => rw [hbyte, hq, List.headD_cons]
  case rest => rw [State.setV_rndIn, hstate, hq, List.tail_cons]
  case none => rw [State.setV_rndIn, hstate, hq, List.tail_nil]
end

section
/-! PROOFS. The index register and memory transfers (43_index_memory.md R170 to R176): the values I is loaded with, the
bytes LD B stores, and the block transfers, which share their mode and their address check. -/

namespace Sys2Proof.Machine

/-! ### Values of I -/

/-- Five times a byte needs no more than 16 bits, so the glyph address is exact (R173). -/
theorem glyphAddress_toNat (a : Byte) : (glyphAddress a).toNat = a.toNat * 5 := by
  rw [glyphAddress, BitVec.toNat_ofNat]
  omega

theorem indexSum_toNat (i : Word) (a : Byte) : (indexSum i a).toNat = (i.toNat + a.toNat) % 65536 :=
  BitVec.toNat_ofNat _ _

/-! ### Addresses through I -/

theorem State.ea_inj (s : State) {i j : Nat} : s.ea i = s.ea j ↔ i = j := Nat.add_right_inj

theorem State.ea_le_ea (s : State) {i j : Nat} : s.ea i ≤ s.ea j ↔ i ≤ j := Nat.add_le_add_iff_left

/-- An address outside a block that begins at I is none of the block's addresses (R170). -/
theorem State.ne_ea_of_outside {s : State} {a n i : Nat} (ha : a < s.ea 0 ∨ s.ea n < a) (hi : i ≤ n) : a ≠ s.ea i := by
  have hlow : s.ea 0 ≤ s.ea i := s.ea_le_ea.mpr (Nat.zero_le i)
  have hhigh : s.ea i ≤ s.ea n := s.ea_le_ea.mpr hi
  omega

/-! ### LD B -/

theorem bcdOnes_toNat (a : Byte) : (bcdOnes a).toNat = a.toNat % 10 := by
  rw [bcdOnes, BitVec.toNat_ofNat]
  omega

/-! ### The block transfers -/

/-- What the two block transfers share (R175, R176, decision D7): nothing happens in NoOp mode; in Copy mode it is the
transfer, to the state u, where the whole block is inside memory, and the fatal condition where it is not. -/
theorem blockTransfer_effect {i : Instr} {x : RegIx} {s u : State} {P : State → Prop}
    (hfatal : fatalOf s i = fatalOf s (.ldMemVx x))
    (hexec : fatalOf s i = none → exec i s = .next (if s.cfg.regBlockMode = .copy then u else s)) (hu : P u) :
    ∃ t, exec i s = .next t ∧
      (s.cfg.regBlockMode = .noOp → t = s) ∧
      (s.cfg.regBlockMode = .copy → s.I.toNat + x.val ≤ 0xFFF → P t) ∧
      (s.cfg.regBlockMode = .copy → 0xFFF < s.I.toNat + x.val →
        HaltsWith ⟨.memoryOutOfRange, s.pc - 2, encode i⟩ s t) := by
  by_cases hcopy : s.cfg.regBlockMode = .copy
  · rcases Nat.lt_or_ge 0xFFF (s.I.toNat + x.val) with hout | hin
    · obtain ⟨t, he, hhalt⟩ := haltsWith_of_fatal (hfatal.trans (if_pos ⟨hcopy, hout⟩))
      exact ⟨t, he, fun hno => by simp [hno] at hcopy, fun _ hin => absurd hout hin.not_gt, fun _ _ => hhalt⟩
    · have hf : fatalOf s i = none := hfatal.trans (if_neg fun h => hin.not_gt h.2)
      exact ⟨u, (hexec hf).trans (by rw [if_pos hcopy]), fun hno => by simp [hno] at hcopy, fun _ _ => hu,
        fun _ hout => absurd hout hin.not_gt⟩
  · have hf : fatalOf s i = none := hfatal.trans (if_neg fun h => hcopy h.1)
    exact ⟨s, (hexec hf).trans (by rw [if_neg hcopy]), fun _ => rfl, fun h => absurd h hcopy, fun h => absurd h hcopy⟩

end Sys2Proof.Machine

open Sys2Proof Sys2Proof.Machine

/-- Settles O40: the registers up to Vx are stored one after the other, to addresses that all differ. -/
theorem registerBlockStores : Obligations.RegisterBlockStores :=
  fun x s hmem => blockTransfer_effect rfl exec_ldMemVx ⟨s.onlyChanges_storeRegs _ _,
    fun r hr => State.memRead_storeRegs hmem.1 ((mem_regsUpTo x r).mpr hr),
    fun _ ha => State.memRead_storeRegs_off hmem.1 fun r hr => State.ne_ea_of_outside ha ((mem_regsUpTo x r).mp hr)⟩

/-- Settles O41: a load writes no memory, so each register up to Vx gets the byte that stood there before. -/
theorem registerBlockLoads : Obligations.RegisterBlockLoads :=
  fun x s => blockTransfer_effect (fatalOf_ldVxMem s x) exec_ldVxMem ⟨s.onlyChanges_loadRegs _ _,
    fun r hr => (State.getV_loadRegs r).trans (if_pos ((mem_regsUpTo x r).mpr hr)),
    fun r hr => (State.getV_loadRegs r).trans (if_neg fun h => hr.not_ge ((mem_regsUpTo x r).mp h))⟩

/-- Settles O37: both loads write I alone, and neither value is narrowed. -/
theorem indexLoads : Obligations.IndexLoads :=
  fun nnn x s => ⟨⟨_, rfl, onlyChanges_index s _, zext16_toNat nnn⟩,
    ⟨_, rfl, onlyChanges_index s _, glyphAddress_toNat (s.getV x)⟩⟩

/-- Settles O38: the sum is narrowed to 16 bits and written to I alone. -/
theorem addIndexWrapsAt16Bits : Obligations.AddIndexWrapsAt16Bits :=
  fun x s => ⟨_, rfl, onlyChanges_index s _, indexSum_toNat s.I (s.getV x)⟩

/-- Settles O39, by whether the third byte is inside memory: the three addresses differ, so each digit is what a read of
its address returns. -/
theorem bcdStoresThreeDigits : Obligations.BcdStoresThreeDigits := by
  intro x s hmem
  rcases Nat.lt_or_ge 0xFFF (s.I.toNat + 2) with hout | hin
  · obtain ⟨t, he, hhalt⟩ := haltsWith_of_fatal (i := .ldB x) (if_pos hout)
    exact ⟨t, he, fun hin => absurd hout hin.not_gt, fun _ => hhalt⟩
  · have hf : fatalOf s (.ldB x) = none := fatalOf_ldB_eq_none x hin
    have hread := memRead_of_exec_ldB hmem.1 hf (exec_ldB hf)
    refine ⟨_, exec_ldB hf, fun _ => ⟨exec_onlyChanges hf (exec_ldB hf), ?hundreds, ?tens, ?ones, fun a ha => ?others⟩,
      fun hout => absurd hout hin.not_gt⟩
    case hundreds => simp [hread, State.ea_inj, bcdHundreds_toNat]
    case tens => simp [hread, State.ea_inj, bcdTens_toNat]
    case ones => simp [hread, bcdOnes_toNat]
    case others =>
      exact exec_keepsMemory hmem.1 hf (exec_ldB hf) fun ⟨hlow, hhigh⟩ => ha.elim hlow.not_gt hhigh.not_gt
end

section
/-! PROOFS. The display (44_display.md R190 to R198): the plane after a list of flips, by parity and where the flipped
pixels all differ, where a sprite's pixels all differ, and the state a draw leaves. -/

namespace Sys2Proof.Machine

/-! ### Flips in order -/

/-- Flipping the same pixels again in the same order flips every pixel an even number of times (R197). -/
theorem Plane.flipAll_flipAll {ps fb : List Pixel} (h : fb.Pairwise Pixel.before) :
    Plane.flipAll ps (Plane.flipAll ps fb) = fb := by
  refine Plane.ext (Plane.rising_flipAll (Plane.rising_flipAll h)) h fun p => ?_
  rw [Plane.mem_flipAll (Plane.rising_flipAll h), litAfter, Plane.mem_flipAll h, litAfter]
  tauto

/-- Where the flipped pixels all differ, each of them ends as the opposite of what it was. -/
theorem Plane.mem_flipAll_of_nodup {ps fb : List Pixel} (h : fb.Pairwise Pixel.before) (hps : ps.Nodup) (p : Pixel) :
    p ∈ Plane.flipAll ps fb ↔ if p ∈ ps then p ∉ fb else p ∈ fb := by
  rw [Plane.mem_flipAll h, litAfter, hps.count]
  by_cases hp : p ∈ ps <;> simp [hp]

/-- Where the flipped pixels all differ, a flip finds its pixel as it was before the first one. -/
theorem Plane.anyOff_of_nodup {ps fb : List Pixel} (h : fb.Pairwise Pixel.before) (hps : ps.Nodup) :
    Plane.anyOff ps fb = true ↔ ∃ p ∈ ps, p ∈ fb := by
  induction ps generalizing fb with
  | nil => simp [Plane.anyOff]
  | cons q qs ih =>
    obtain ⟨hq, hqs⟩ := List.nodup_cons.mp hps
    have hflip : ∀ p ∈ qs, (p ∈ Plane.flip q fb ↔ p ∈ fb) := fun p hp => by
      rw [Plane.mem_flip h, if_neg (ne_of_mem_of_not_mem hp hq)]
    have hrest : (∃ p ∈ qs, p ∈ Plane.flip q fb) ↔ ∃ p ∈ qs, p ∈ fb :=
      exists_congr fun p => and_congr_right (hflip p)
    rw [Plane.anyOff, Bool.or_eq_true, Plane.lit_iff, ih (Plane.rising_flip h) hqs, hrest,
      List.exists_mem_cons_iff]

/-- After flips of pixels that all differ, the same flips turn a pixel off exactly if the first ones turned one on. -/
theorem Plane.anyOff_flipAll_of_nodup {ps fb : List Pixel} (h : fb.Pairwise Pixel.before) (hps : ps.Nodup) :
    Plane.anyOff ps (Plane.flipAll ps fb) = true ↔ ∃ p, p ∈ Plane.flipAll ps fb ∧ p ∉ fb := by
  rw [Plane.anyOff_of_nodup (Plane.rising_flipAll h) hps]
  refine exists_congr fun p => ?_
  rw [Plane.mem_flipAll_of_nodup h hps]
  by_cases hp : p ∈ ps <;> simp [hp]

/-! ### The sprite's pixels -/

/-- Offsets below the modulus stay apart when wrapped. -/
theorem wrapped_offset_inj {c a b m : Nat} (ha : a < m) (hb : b < m) (h : (c + a) % m = (c + b) % m) : a = b :=
  (Nat.ModEq.add_left_cancel' c h).eq_of_lt_of_lt ha hb

/-- On a plane at least as wide and high as the sprite, set bits land on distinct pixels (R193, R198). -/
theorem spritePixels_nodup {s : State} {n : Nat} (hw : 8 ≤ s.cfg.width) (hh : n ≤ s.cfg.height) (xs ys : Nat) :
    (spritePixels xs ys n s).Nodup := by
  rw [spritePixels, List.nodup_flatMap]
  constructor
  case left =>
    intro row _
    refine List.Nodup.map_on (fun a ha b hb hab => ?_) (List.nodup_range.filter _)
    have ha8 : a < 8 := List.mem_range.mp (List.mem_of_mem_filter ha)
    have hb8 : b < 8 := List.mem_range.mp (List.mem_of_mem_filter hb)
    exact wrapped_offset_inj (ha8.trans_le hw) (hb8.trans_le hw) (congrArg Prod.fst hab)
  case right =>
    refine List.nodup_range.imp_of_mem fun {i j} hi hj hne p hpi hpj => ?_
    obtain ⟨_, -, rfl⟩ := List.mem_map.mp hpi
    obtain ⟨_, -, hp⟩ := List.mem_map.mp hpj
    refine hne (wrapped_offset_inj ?_ ?_ (congrArg Prod.snd hp).symm)
    · exact (List.mem_range.mp hi).trans_le hh
    · exact (List.mem_range.mp hj).trans_le hh

/-! ### The state a draw leaves -/

/-- The state after a draw that toggles the pixels ps: the plane and the trace, then the flag, then one present
(R195). -/
def State.drawn (ps : List Pixel) (s : State) : State :=
  State.present <| State.setV VF (flagCollision (Plane.anyOff ps s.fb))
    { s with fb := Plane.flipAll ps s.fb, trace := s.trace ++ ps.map fun p => .dispToggle p.1 p.2 }

theorem fatalOf_drw_eq_none {s : State} {n : Nibble} (x y : RegIx) (h : spriteFits n s) :
    fatalOf s (.drw x y n) = none :=
  if_neg fun ⟨hpos, hout⟩ => h.elim hpos.ne' hout.not_ge

theorem fatalOf_drw_eq_some {s : State} {n : Nibble} (x y : RegIx) (h : ¬ spriteFits n s) :
    fatalOf s (.drw x y n) = some .memoryOutOfRange := by
  obtain ⟨hpos, hout⟩ := not_or.mp h
  exact if_pos ⟨Nat.pos_of_ne_zero hpos, Nat.lt_of_not_ge hout⟩

theorem exec_drw_of_fits {s : State} {n : Nibble} (x y : RegIx) (h : spriteFits n s) :
    exec (.drw x y n) s = .next (s.drawn (spritePixels (s.getV x).toNat (s.getV y).toNat n.toNat s)) := by
  rw [exec_drw (fatalOf_drw_eq_none x y h), State.toggleAll_eq, State.spritePoints_wrapped]
  rfl

@[simp] theorem State.drawn_fb (ps : List Pixel) (s : State) : (s.drawn ps).fb = Plane.flipAll ps s.fb := rfl

theorem State.drawn_trace (ps : List Pixel) (s : State) :
    (s.drawn ps).trace = s.trace ++ ps.map (fun p => .dispToggle p.1 p.2) ++ [.dispPresent] := rfl

@[simp] theorem State.getV_drawn_VF (ps : List Pixel) (s : State) :
    (s.drawn ps).getV VF = flagCollision (Plane.anyOff ps s.fb) := State.getV_setV_same _ VF _

/-- A draw leaves I and memory alone, so the sprite is the same after it (R195). -/
theorem spritePixels_drawn (ps : List Pixel) (s : State) (xs ys n : Nat) :
    spritePixels xs ys n (s.drawn ps) = spritePixels xs ys n s := rfl

/-- Where the draw left Vx and Vy as they were, the same draw toggles the same pixels again (R197). -/
theorem exec_drw_after_drawn {s : State} {n : Nibble} {x y : RegIx} (ps : List Pixel) (h : spriteFits n s)
    (hx : (s.drawn ps).getV x = s.getV x) (hy : (s.drawn ps).getV y = s.getV y) :
    exec (.drw x y n) (s.drawn ps) =
      .next ((s.drawn ps).drawn (spritePixels (s.getV x).toNat (s.getV y).toNat n.toNat s)) := by
  have hfit : spriteFits n (s.drawn ps) := h
  rw [exec_drw_of_fits x y hfit, hx, hy, spritePixels_drawn]

theorem flagCollision_eq_one {b : Bool} : flagCollision b = 1 ↔ b = true := by cases b <;> decide

end Sys2Proof.Machine

open Sys2Proof Sys2Proof.Machine

/-- Settles O46: a draw that fits toggles the sprite's pixels in order, each as often as the sprite hits it; one that
does not is the fatal condition alone. -/
theorem drawTogglesTheSprite : Obligations.DrawTogglesTheSprite := by
  intro x y n s hinv
  by_cases hfit : spriteFits n s
  case pos =>
    have hf := fatalOf_drw_eq_none x y hfit
    have he := exec_drw_of_fits x y hfit
    refine ⟨_, he, fun _ => ⟨exec_onlyChanges hf he, fun r hr => ?_, fun p => ?_, State.drawn_trace _ s⟩,
      fun h => absurd hfit h⟩
    · exact exec_keepsRegs hf he (mt List.mem_singleton.mpr hr)
    · rw [State.drawn_fb, Plane.mem_flipAll hinv.plane.1]
  case neg =>
    obtain ⟨t, he, hhalt⟩ := haltsWith_of_fatal (fatalOf_drw_eq_some x y hfit)
    exact ⟨t, he, fun h => absurd h hfit, fun _ => hhalt⟩

/-- Settles O47: the flag is the collision of the toggles, each judged at its own turn. -/
theorem drawSetsTheCollisionFlag : Obligations.DrawSetsTheCollisionFlag := by
  intro x y n s hinv hfit
  refine ⟨_, exec_drw_of_fits x y hfit, ?_⟩
  rw [State.getV_drawn_VF, ← Plane.anyOff_iff hinv.plane.1]
  exact ⟨fun h => by rw [h]; rfl, fun h => by rw [Bool.eq_false_iff.mpr h]; rfl⟩

/-- Settles O48: the second draw toggles the same pixels as the first, so each pixel ends flipped an even number of
times; where they all differ, a pixel collides at the second draw exactly if the first turned it on. -/
theorem drawingTwiceRestoresThePlane : Obligations.DrawingTwiceRestoresThePlane := by
  intro x y n s t hinv hfit he hx hy
  rw [exec_drw_of_fits x y hfit] at he
  cases he
  refine ⟨_, exec_drw_after_drawn _ hfit hx hy, Plane.flipAll_flipAll hinv.plane.1, fun hw hh => ?_⟩
  have hn : n.toNat ≤ s.cfg.height := (Nat.le_of_lt_succ n.isLt).trans hh
  rw [State.getV_drawn_VF, flagCollision_eq_one]
  exact Plane.anyOff_flipAll_of_nodup hinv.plane.1 (spritePixels_nodup hw hn _ _)

/-- Settles O44: CLS empties the plane and emits one event. -/
theorem clearScreenBlanksThePlane : Obligations.ClearScreenBlanksThePlane :=
  fun _ s => ⟨_, rfl, onlyChanges_plane_trace s _ _, fun _ => List.not_mem_nil, rfl⟩
end

section
/-! PROOFS. Keys and timers (45_timers_input.md R210 to R215): when a value names a pressed key of the sample, and what
the key skips, the timer accesses and the await-key opcode change. -/

namespace Sys2Proof.Machine

/-- A value above 15 names no key; any other names a bit of the frame's sample (R210, decision D13). -/
theorem State.keyPressed_iff (s : State) (a : Byte) :
    s.keyPressed a = true ↔ a.toNat < 16 ∧ s.keys.getLsbD a.toNat = true := by
  rw [State.keyPressed, Bool.and_eq_true, decide_eq_true_eq]

/-- A skip on the opposite condition advances pc exactly where the skip on the condition does not. -/
theorem State.skipIf_not_pc (s : State) (c : Bool) : (s.skipIf (!c)).pc = if c then s.pc else s.pc + 2 := by
  cases c <;> rfl

end Sys2Proof.Machine

open Sys2Proof Sys2Proof.Machine

/-- Settles O49: both skips decide on the one test of the sample, SKNP on its opposite. -/
theorem keySkipsTestTheSample : Obligations.KeySkipsTestTheSample := by
  intro x s
  simp only [← State.keyPressed_iff]
  exact ⟨⟨_, rfl, s.onlyChanges_skipIf _, s.skipIf_pc _⟩, ⟨_, rfl, s.onlyChanges_skipIf _, s.skipIf_not_pc _⟩⟩

/-- Settles O50: each access writes its one destination, and the tone is not a part of any of them. -/
theorem timerAccessCopies : Obligations.TimerAccessCopies :=
  fun x s => ⟨⟨_, rfl, s.onlyChanges_setV x _, s.keepsRegsBut_setV x _, s.getV_setV_same x _⟩,
    ⟨_, rfl, onlyChanges_delay s _, rfl⟩, ⟨_, rfl, onlyChanges_sound s _, rfl⟩⟩

/-- Settles O51: the latch is a run state, and Vx is written only when the wait resolves. -/
theorem awaitKeySetsTheLatch : Obligations.AwaitKeySetsTheLatch :=
  fun _ s => ⟨_, rfl, onlyChanges_runState s _, rfl⟩
end

section
/-! PROOFS. Fatal conditions and the sound timer (60_exceptions.md R230 to R242): that an instruction without a fatal
condition halts no core, and what n timer steps in a row do to the timers, the tone and the trace. -/

namespace Sys2Proof.Machine

/-! ### No instruction halts the core without a fatal condition -/

/-- Only LD Vx, K writes the run state where no fatal condition is met (R213). -/
theorem eq_ldVxK_of_writes_runState {i : Instr} (h : Part.runState ∈ writtenParts i) : ∃ x, i = .ldVxK x := by
  cases i
  case ldVxK x => exact ⟨x, rfl⟩
  all_goals simp [writtenParts, mayWritePart] at h

theorem exec_keeps_not_halted {i : Instr} {s t : State} (hs : ¬ s.isHalted) (hf : fatalOf s i = none)
    (he : exec i s = .next t) : ¬ t.isHalted := by
  by_cases hw : Part.runState ∈ writtenParts i
  · obtain ⟨x, rfl⟩ := eq_ldVxK_of_writes_runState hw
    cases he
    exact nofun
  · have hrun : t.runState = s.runState := exec_onlyChanges hf he .runState hw
    rwa [State.isHalted, hrun]

/-! ### Timer steps in a row -/

theorem OnlyChanges.iterate {ps : List Part} {f : State → State} (hf : ∀ s, OnlyChanges ps s (f s)) (n : Nat)
    (s : State) : OnlyChanges ps s (f^[n] s) := by
  induction n with
  | zero => exact .refl ps s
  | succ n ih => rw [Function.iterate_succ_apply']; exact ih.trans (hf _)

variable (n : Nat) (s : State)

theorem State.onlyChanges_timerSteps : OnlyChanges [.delay, .sound, .tone, .trace] s (State.timerStep^[n] s) :=
  .iterate State.onlyChanges_timerStep n s

theorem State.timerSteps_cfg : (State.timerStep^[n] s).cfg = s.cfg :=
  State.onlyChanges_timerSteps n s .cfg (by decide)

theorem State.timerSteps_DT : (State.timerStep^[n] s).DT.toNat = s.DT.toNat - n := by
  induction n with
  | zero => rfl
  | succ n ih => rw [Function.iterate_succ_apply', (State.timerStep_values _).1, ih, Nat.sub_sub]

theorem State.timerSteps_ST : (State.timerStep^[n] s).ST.toNat = s.ST.toNat - n := by
  induction n with
  | zero => rfl
  | succ n ih => rw [Function.iterate_succ_apply', (State.timerStep_values _).2.1, ih, Nat.sub_sub]

/-- The next step finds the sound timer above 1 exactly where it began above the number of steps then done (R242). -/
theorem State.one_lt_timerSteps_ST : 1 < (State.timerStep^[n] s).ST.toNat ↔ n + 1 < s.ST.toNat := by
  rw [State.timerSteps_ST]
  omega

theorem State.timerSteps_succ_toneOn : (State.timerStep^[n + 1] s).toneOn = decide (n + 1 < s.ST.toNat) := by
  obtain ⟨-, -, htone, -⟩ := State.timerStep_values (State.timerStep^[n] s)
  rw [Function.iterate_succ_apply', htone, decide_eq_decide]
  exact State.one_lt_timerSteps_ST n s

theorem State.timerSteps_trace : (State.timerStep^[n] s).trace = s.trace ++ (List.range n).map (fun k =>
    if k + 1 < s.ST.toNat then .tonePlay s.cfg.toneFreq else .toneStop) := by
  induction n with
  | zero => exact (List.append_nil _).symm
  | succ n ih =>
    obtain ⟨-, -, -, htrace⟩ := State.timerStep_values (State.timerStep^[n] s)
    rw [Function.iterate_succ_apply', htrace, ih, State.timerSteps_cfg, List.range_succ, List.map_append,
      List.append_assoc]
    simp only [State.one_lt_timerSteps_ST, List.map_cons, List.map_nil]

end Sys2Proof.Machine

open Sys2Proof Sys2Proof.Machine

/-- Settles O12: a fatal condition is the whole of what its instruction does, and without one the run state stays or
becomes the input wait. -/
theorem fatalConditionsAreTheTablesAndPrecise : Obligations.FatalConditionsAreTheTablesAndPrecise := by
  intro i s hs
  obtain ⟨t, he⟩ := exec_next i s
  refine ⟨t, he, fun c hc => ?_, fun hf => exec_keeps_not_halted hs hf he⟩
  obtain ⟨u, hu, hhalt⟩ := haltsWith_of_fatal hc
  cases he.symm.trans hu
  exact hhalt

/-- Settles O15, by induction on the number of timer steps for each part; the tone is decided by the last of them. -/
theorem soundDecaysOneFrameAtATime : Obligations.SoundDecaysOneFrameAtATime := by
  intro s n
  refine ⟨_, rfl, State.onlyChanges_timerSteps n s, State.timerSteps_DT n s, State.timerSteps_ST n s, fun hn => ?_,
    State.timerSteps_trace n s⟩
  obtain ⟨m, rfl⟩ := Nat.exists_eq_succ_of_ne_zero hn.ne'
  exact State.timerSteps_succ_toneOn m s
end

section
/-! PROOFS. The load sequence (70_reset_and_hazards.md R271 to R273): what an image that fits makes of the machine, what
memory then reads as, and that a larger image is one fatal condition. -/

namespace Sys2Proof.Machine

theorem onlyChanges_pending (s : State) (ts : List Transaction) :
    OnlyChanges [.pending] s { s with pending := ts } := by
  intro p hp; cases p <;> simp_all [Part.Same, State.getV, State.memRead, State.bg]

/-! ### An image that fits, and one that does not -/

theorem State.load_of_oversized {bytes : List Byte} (h : maxImage < bytes.length) (s : State) :
    s.load bytes = s.raiseFatal .loadError 0x200 0 := if_pos h

section
variable {bytes : List Byte} (h : bytes.length ≤ maxImage) (s : State)
include h

/-- A load that fits is power-on of the same block (R272), but that it places the image and keeps the display, the tone,
the key sample, the trace and the ports (decisions D21 and D33, assumption log 6). -/
theorem State.load_of_fits : s.load bytes = { State.powerOn s.cfg with
    mem := Memory.image s.bg 0x200 bytes, fb := s.fb, toneOn := s.toneOn, keys := s.keys, trace := s.trace,
    pending := s.pending, frameLeft := s.frameLeft, rndIn := s.rndIn, draws := s.draws } :=
  if_neg h.not_gt

theorem State.onlyChanges_load_of_fits :
    OnlyChanges [.regs, .index, .pc, .callStack, .delay, .sound, .memory, .runState] s (s.load bytes) := by
  rw [State.load_of_fits h]
  intro p hp
  cases p
  case cfg | plane | tone | keys | trace | pending | frameLeft => rfl
  case random => exact ⟨rfl, rfl⟩
  all_goals exact absurd (by decide) hp

/-! ### What memory reads as after a load that fits -/

theorem State.memRead_load_of_fits (a : Nat) : (s.load bytes).memRead a =
    if 0x200 ≤ a then bytes.getD (a - 0x200) (background s.cfg.font a) else background s.cfg.font a := by
  rw [State.load_of_fits h]
  exact Memory.read_image

theorem State.memRead_load_below {a : Nat} (ha : a < 0x200) : (s.load bytes).memRead a = background s.cfg.font a := by
  rw [State.memRead_load_of_fits h, if_neg ha.not_ge]

theorem State.memRead_load_image (k : Nat) (hk : k < bytes.length) : (s.load bytes).memRead (0x200 + k) = bytes[k] := by
  rw [State.memRead_load_of_fits h, if_pos (Nat.le_add_right _ _), Nat.add_sub_cancel_left]
  exact List.getD_eq_getElem _ _ hk

theorem State.memRead_load_above {a : Nat} (ha : 0x200 + bytes.length ≤ a) : (s.load bytes).memRead a = 0 := by
  rw [State.memRead_load_of_fits h, if_pos (by omega), List.getD_eq_default _ _ (by omega),
    background_of_le (by omega)]

end

end Sys2Proof.Machine

open Sys2Proof Sys2Proof.Machine

/-- Settles O19: the registers' parts are those of power-on, and memory is the image over the background. -/
theorem loadReinitializesTheMachine : Obligations.LoadReinitializesTheMachine := by
  intro s bytes ts hlen hf hp
  have hload := State.load_of_fits hlen { s with pending := ts }
  refine ⟨_, step_of_pending hf hp, ?frame, ?regs, ?index, ?pc, ?sp, ?stack, ?delay, ?sound, ?run, ?pending, ?font,
    ?zero, State.memRead_load_image hlen _, fun a => State.memRead_load_above hlen _⟩
  case frame =>
    exact ((onlyChanges_pending s ts).append (State.onlyChanges_load_of_fits hlen _)).mono (by decide)
  case font => intro a; rw [State.memRead_load_below hlen _ (by omega), background_font]
  case zero => intro a ha hlt; rw [State.memRead_load_below hlen _ hlt, background_of_le ha]
  all_goals simp [hload, State.getV]

/-- Settles O20: the load of a larger image raises the one fatal condition LoadError. -/
theorem oversizedLoadHaltsAndChangesNothing : Obligations.OversizedLoadHaltsAndChangesNothing := by
  intro s bytes ts hlen hf hp
  refine ⟨_, step_of_pending hf hp, ?_⟩
  rw [State.load_of_oversized hlen]
  exact haltsWith_raiseFatal _ _ _ _
end
